-- ==== Sys2Proof/Word.lean ====
section
/-! DEFINITION. The word types of the machine: bytes, 16-bit and 32-bit words, and the two operand widths of the
packed compares (spec/00_scope.md R5, R6: bit 0 is the least significant bit). -/

namespace Sys2Proof

/-- One byte of memory or of an instruction (R31, R51). -/
abbrev Byte := BitVec 8

/-- A 16-bit word: an effective address of 16-bit addressing (R60), a selector (R35). -/
abbrev Word16 := BitVec 16

/-- A 32-bit word: a general register (R12), `EIP` (R13), an effective or linear address (R32). -/
abbrev Word32 := BitVec 32

/-- The contents of an MMX technology register (R10), and of a 64-bit memory operand. -/
abbrev Word64 := BitVec 64

/-- The contents of an XMM register (R11), and of a 128-bit memory operand. -/
abbrev Word128 := BitVec 128

/-- A register number: three bits of a ModRM or SIB byte (R53, R59). -/
abbrev RegNum := Fin 8

end Sys2Proof
end

