-- ==== Sys2Proof/Config.lean ====
section
/-! DEFINITION. What is fixed for the machine (spec/00_scope.md R5), the values State.reset takes (spec/10_state.md R25),
the timing table (spec/70_reset_and_hazards.md R116) and the free values of the model. -/

namespace Sys2Proof

/-- The operating modes (R21, R102), after the three exception tables of the source. -/
inductive Mode where
  | protectedMode
  | realMode
  | v86Mode
  deriving DecidableEq, Repr

/-- An address size, 16 or 32 bits (R56). -/
inductive AddrSize where
  | a16
  | a32
  deriving DecidableEq, Repr

/-- The other address size: what the prefix 0x67 selects (R56). -/
def AddrSize.other : AddrSize → AddrSize
  | .a16 => .a32
  | .a32 => .a16

/-- The kinds of access that translation distinguishes (R37): an operand read, an instruction fetch (R48). -/
inductive Access where
  | dataRead
  | fetch
  deriving DecidableEq, Repr

/-- What translation answers for one linear address (R37): a physical address, whose width the spec leaves to
`Translate`, or a page fault with a code the spec leaves open (93_implementation_defined.md U1). -/
inductive Translated where
  | phys (addr : Nat)
  | pageFault (code : Nat)
  deriving DecidableEq, Repr

namespace Config

/-- The number of `mm` registers, `NumMM` of R5. -/
def numMM : Nat := 8

/-- The number of `xmm` registers, `NumXMM` of R5. -/
def numXMM : Nat := 8

/-- The longest instruction the model admits, in bytes (R62). -/
def maxLength : Nat := 11

/-- FREE VALUE (R40, 92_eei_decisions.md D24; log 10). Whether a misaligned 128-bit operand in SS that is also outside
the SS limit raises #SS(0) (true) or #GP(0) (false): drawn for the draw number, `EIP` and the effective address. -/
opaque stackFaultDrawn : Nat → Word32 → Word32 → Bool

/-- FREE VALUE (R37, 93_implementation_defined.md U6; log 11). Which of several different page faults of one operand is
reported: drawn for the draw number, `EIP` and the effective address, and reduced modulo the number of faulting bytes. -/
opaque pageFaultDrawn : Nat → Word32 → Word32 → Nat

/-! Reset values. PRESUMED (log 4): the values of the IA-32 family, which R25 lists for information. -/

/-- `EIP` after RESET (R25). PRESUMED, log 4. -/
def resetEip : Word32 := 0x0000FFF0#32

/-- EDX after RESET: "processor signature" (R25). PRESUMED, log 4: a signature of the kind 0F2n of R116. -/
def resetSignature : Word32 := 0x00000F24#32

/-- The selector of CS after RESET (R25). PRESUMED, log 4. -/
def resetCsSelector : Word16 := 0xF000#16

/-- The base of CS after RESET (R25). PRESUMED, log 4. -/
def resetCsBase : Word32 := 0xFFFF0000#32

/-- The limit of every segment after RESET (R25). PRESUMED, log 4. -/
def resetLimit : Word32 := 0x0000FFFF#32

/-- The address size of Protected mode code at reset. DESIGN CHOICE, log 23: the spec gives none. -/
def resetCodeAddrSize : AddrSize := .a16

/-! The values and defaults that R5 fixes for the parameters of the platform (92_eei_decisions.md D1, D9, D11). -/

/-- `HasMMX` (R5). -/
def defaultHasMMX : Bool := true

/-- `HasSSE2` by default (R5). -/
def defaultHasSSE2 : Bool := true

/-- `AlignmentCheckEnabled` by default (R5, log 22). -/
def defaultAlignmentCheck : Bool := false

/-- The last offset inside a segment by default: the default is flat (R5, R33). -/
def flatLimit : Word32 := 0xFFFFFFFF#32

/-! The timing table of the source (R116), recorded and used by nothing (R117, log 18). -/

/-- One row of the timing table: latency and throughput for the CPUID signatures 0F3n, 0F2n and 069n in that order
(`none` is the table's "-"), and the execution unit of 0F2n. -/
structure TimingRow where
  operands : String
  latency : List (Option Nat)
  throughput : List (Option Nat)
  unit : String
  deriving DecidableEq, Repr

/-- R116, whole: the three mnemonics share each row, and no memory-source form is listed. -/
def timing : List TimingRow :=
  [ ⟨"mm, mm", [some 2, some 2, none], [some 1, some 1, none], "MMX_ALU"⟩,
    ⟨"xmm, xmm", [some 2, some 2, some 1], [some 2, some 2, some 1], "MMX_ALU"⟩ ]

end Config

end Sys2Proof
end

