-- ==== Sys2Proof/Syntax.lean ====
section
/-! DEFINITION. The instructions as syntax: one constructor of `Instr` per row of spec/opcode_table.json (spec/30_encoding.md
R50), with the prefixes, the destination register and the source operand the encoding carries (R51 to R60). -/

namespace Sys2Proof

/-- The six segment registers the source names (R15). -/
inductive SegReg where
  | es
  | cs
  | ss
  | ds
  | fs
  | gs
  deriving DecidableEq, Repr

/-- The number of a segment register (R15). -/
def SegReg.num : SegReg → Fin 6
  | .es => 0
  | .cs => 1
  | .ss => 2
  | .ds => 3
  | .fs => 4
  | .gs => 5

/-- The prefixes the model admits before `0F` (R52). -/
inductive Prefix where
  | opSize
  | addrSize
  | seg (r : SegReg)
  deriving DecidableEq, Repr

/-- The displacement of a 32-bit addressing form with a base (R58): none, disp8 or disp32, for `mod` 0, 1, 2. -/
inductive Disp32 where
  | none
  | d8 (v : Byte)
  | d32 (v : Word32)
  deriving DecidableEq, Repr

/-- The displacement of a 16-bit addressing form with registers (R60): none, disp8 or disp16, for `mod` 0, 1, 2. -/
inductive Disp16 where
  | none
  | d8 (v : Byte)
  | d16 (v : Word16)
  deriving DecidableEq, Repr

/-- The addressing forms of a memory operand: 32-bit addressing (R58, R59) and 16-bit addressing (R60). -/
inductive MemOperand where
  /-- 32-bit, `mod` 0, `rm` 5: the displacement alone (R58). -/
  | abs32 (disp : Word32)
  /-- 32-bit, no SIB byte: one base register, `rm` other than 4 (R58). -/
  | base32 (base : RegNum) (disp : Disp32)
  /-- 32-bit with a SIB byte and a base register (R59); `index` none is the field value 4. -/
  | sib (scale : Fin 4) (index : Option RegNum) (base : RegNum) (disp : Disp32)
  /-- 32-bit with a SIB byte, `mod` 0 and base field 5: no base register, a disp32 (R59). -/
  | sibNoBase (scale : Fin 4) (index : Option RegNum) (disp : Word32)
  /-- 16-bit, `mod` 0, `rm` 6: the displacement alone (R60). -/
  | abs16 (disp : Word16)
  /-- 16-bit: the register sum of row `rm` (R60). -/
  | base16 (rm : RegNum) (disp : Disp16)
  deriving DecidableEq, Repr

/-- The second operand (R54): a register of the destination's own file (R55), or memory. -/
inductive Operand where
  | reg (r : RegNum)
  | mem (m : MemOperand)
  deriving DecidableEq, Repr

/-- The lane widths (R50, R71). -/
inductive LaneWidth where
  | byte
  | word
  | dword
  deriving DecidableEq, Repr

/-- The lane width in bits (R71). -/
def LaneWidth.bits : LaneWidth → Nat
  | .byte => 8
  | .word => 16
  | .dword => 32

/-- The six encoded forms (R50). Each carries its prefix bytes in the order they stand, its destination register
(ModRM.reg) and its source operand (ModRM.mod and ModRM.rm with what follows). -/
inductive Instr where
  /-- `0F 74 /r`, PCMPEQB mm, mm/m64 (R73). -/
  | pcmpeqbMm (ps : List Prefix) (dst : RegNum) (src : Operand)
  /-- `66 0F 74 /r`, PCMPEQB xmm1, xmm2/m128 (R74). -/
  | pcmpeqbXmm (ps : List Prefix) (dst : RegNum) (src : Operand)
  /-- `0F 75 /r`, PCMPEQW mm, mm/m64 (R75). -/
  | pcmpeqwMm (ps : List Prefix) (dst : RegNum) (src : Operand)
  /-- `66 0F 75 /r`, PCMPEQW xmm1, xmm2/m128 (R76). -/
  | pcmpeqwXmm (ps : List Prefix) (dst : RegNum) (src : Operand)
  /-- `0F 76 /r`, PCMPEQD mm, mm/m64 (R77). -/
  | pcmpeqdMm (ps : List Prefix) (dst : RegNum) (src : Operand)
  /-- `66 0F 76 /r`, PCMPEQD xmm1, xmm2/m128 (R78). -/
  | pcmpeqdXmm (ps : List Prefix) (dst : RegNum) (src : Operand)
  deriving DecidableEq, Repr

namespace Instr

/-- The prefix bytes of an instruction, in the order they stand. -/
def prefixes : Instr → List Prefix
  | .pcmpeqbMm ps _ _ | .pcmpeqbXmm ps _ _ | .pcmpeqwMm ps _ _ | .pcmpeqwXmm ps _ _ | .pcmpeqdMm ps _ _
  | .pcmpeqdXmm ps _ _ => ps

/-- The destination register, ModRM.reg (R54). -/
def dst : Instr → RegNum
  | .pcmpeqbMm _ d _ | .pcmpeqbXmm _ d _ | .pcmpeqwMm _ d _ | .pcmpeqwXmm _ d _ | .pcmpeqdMm _ d _
  | .pcmpeqdXmm _ d _ => d

/-- The source operand (R54). -/
def src : Instr → Operand
  | .pcmpeqbMm _ _ o | .pcmpeqbXmm _ _ o | .pcmpeqwMm _ _ o | .pcmpeqwXmm _ _ o | .pcmpeqdMm _ _ o
  | .pcmpeqdXmm _ _ o => o

/-- The lane width of the row (R50). -/
def lane : Instr → LaneWidth
  | .pcmpeqbMm _ _ _ | .pcmpeqbXmm _ _ _ => .byte
  | .pcmpeqwMm _ _ _ | .pcmpeqwXmm _ _ _ => .word
  | .pcmpeqdMm _ _ _ | .pcmpeqdXmm _ _ _ => .dword

/-- Whether the row is one of the three with the mandatory prefix 0x66, the `xmm` rows (R50). -/
def wide : Instr → Bool
  | .pcmpeqbMm _ _ _ | .pcmpeqwMm _ _ _ | .pcmpeqdMm _ _ _ => false
  | .pcmpeqbXmm _ _ _ | .pcmpeqwXmm _ _ _ | .pcmpeqdXmm _ _ _ => true

/-- The form of a lane width and an operand size (R50). -/
def form : LaneWidth → Bool → List Prefix → RegNum → Operand → Instr
  | .byte, false => .pcmpeqbMm
  | .byte, true => .pcmpeqbXmm
  | .word, false => .pcmpeqwMm
  | .word, true => .pcmpeqwXmm
  | .dword, false => .pcmpeqdMm
  | .dword, true => .pcmpeqdXmm

end Instr

/-- The displacement bytes of R62. -/
def Disp32.bytes : Disp32 → Nat
  | .none => 0
  | .d8 _ => 1
  | .d32 _ => 4

/-- The displacement bytes of R62. -/
def Disp16.bytes : Disp16 → Nat
  | .none => 0
  | .d8 _ => 1
  | .d16 _ => 2

/-- 1 when a SIB byte is present, else 0 (R59, R62). -/
def MemOperand.sibBytes : MemOperand → Nat
  | .sib _ _ _ _ | .sibNoBase _ _ _ => 1
  | .abs32 _ | .base32 _ _ | .abs16 _ | .base16 _ _ => 0

/-- The number of displacement bytes (R62). -/
def MemOperand.dispBytes : MemOperand → Nat
  | .abs32 _ | .sibNoBase _ _ _ => 4
  | .base32 _ d | .sib _ _ _ d => d.bytes
  | .abs16 _ => 2
  | .base16 _ d => d.bytes

/-- The bytes after ModRM: SIB and displacement (R62); none for a register source (R55). -/
def Operand.extraBytes : Operand → Nat
  | .reg _ => 0
  | .mem m => m.sibBytes + m.dispBytes

/-- The length formula of R62: prefixes, the two opcode bytes, ModRM, SIB, displacement. -/
def instrLength (ps : List Prefix) (src : Operand) : Nat := ps.length + 2 + 1 + src.extraBytes

/-- The length of an instruction in bytes (R62). -/
def Instr.length (i : Instr) : Nat := instrLength i.prefixes i.src

end Sys2Proof
end

