-- ==== Sys2Proof/WellFormed.lean ====
section
/-! DEFINITION. Well-formed instructions: the checks that make an `Instr` the meaning of one byte string (spec/30_encoding.md
R52, R55 to R60). The address size of a memory operand depends on the code's default size (R56), which is an argument. -/

namespace Sys2Proof

/-- Whether two prefixes may not stand in one instruction: the same prefix twice, or two segment prefixes (R52). -/
def Prefix.clash : Prefix → Prefix → Bool
  | .opSize, .opSize => true
  | .addrSize, .addrSize => true
  | .seg _, .seg _ => true
  | .opSize, .addrSize | .opSize, .seg _ | .addrSize, .opSize | .addrSize, .seg _ | .seg _, .opSize
  | .seg _, .addrSize => false

/-- Whether a prefix clashes with one already seen (R63). -/
def Prefix.clashes (p : Prefix) (seen : List Prefix) : Bool := seen.any p.clash

/-- Whether the prefixes may stand one after the other after those already seen (R52, R63). -/
def prefixesAdmitted (seen : List Prefix) : List Prefix → Bool
  | [] => true
  | p :: ps => !p.clashes seen && prefixesAdmitted (seen ++ [p]) ps

/-- The address size of a memory operand: the default, or the other one under 0x67 (R56). -/
def addressSize (dflt : AddrSize) (ps : List Prefix) : AddrSize :=
  if .addrSize ∈ ps then dflt.other else dflt

/-- The address size an addressing form belongs to (R58 to R60). -/
def MemOperand.size : MemOperand → AddrSize
  | .abs32 _ | .base32 _ _ | .sib _ _ _ _ | .sibNoBase _ _ _ => .a32
  | .abs16 _ | .base16 _ _ => .a16

/-- Whether an addressing form has an encoding of its own: `rm` 4 means a SIB byte and `mod` 0 with `rm` 5 a bare disp32
(R58); an index field of 4 means no index and `mod` 0 with base 5 no base (R59); `mod` 0 with `rm` 6 means a bare disp16
(R60). -/
def MemOperand.wf : MemOperand → Bool
  | .abs32 _ | .abs16 _ => true
  | .base32 b d => b != 4 && !(b == 5 && d == .none)
  | .sib _ x b d => x != some 4 && !(b == 5 && d == .none)
  | .sibNoBase _ x _ => x != some 4
  | .base16 r d => !(r == 6 && d == .none)

/-- The check of a source operand under an address size (R55, R56). -/
def Operand.wf (size : AddrSize) : Operand → Bool
  | .reg _ => true
  | .mem m => m.wf && m.size == size

/-- An instruction is well formed under a default address size when its prefixes are admitted (R52), 0x66 is among them
exactly for the `xmm` rows (R50), and its source operand has an encoding under its address size (R56). -/
def Instr.wf (dflt : AddrSize) (i : Instr) : Bool :=
  prefixesAdmitted [] i.prefixes && decide (.opSize ∈ i.prefixes) == i.wide
    && i.src.wf (addressSize dflt i.prefixes)

end Sys2Proof
end

