-- ==== Sys2Proof/Decode.lean ====
section
/-! DEFINITION. The decoder (spec/30_encoding.md R51 to R63), total on any bytes and rejecting by name, and after it the
encoder, written from the same tables. Decoding is syntactic: it depends on the bytes and on the default address size, and
not on `HasSSE2`, whose effect (R79) is in the meanings (log 8). -/

namespace Sys2Proof

/-- Why bytes are not an instruction: a refused prefix (R52), no encoding of this spec (R63), or bytes that end before the
instruction does. -/
inductive DecodeError where
  | prefixNotAdmitted
  | notInScope
  | truncated
  deriving DecidableEq, Repr

/-- What reading something from a byte list answers: the thing and the bytes after it, or an error. -/
inductive Parsed (α : Type) where
  | ok (v : α) (rest : List Byte)
  | bad (e : DecodeError)
  deriving DecidableEq, Repr

/-- Go on reading after something was read. -/
def Parsed.andThen {α β : Type} (p : Parsed α) (f : α → List Byte → Parsed β) : Parsed β :=
  match p with
  | .ok v rest => f v rest
  | .bad e => .bad e

/-! ### Fields of bytes -/

/-- The fields of a ModRM or SIB byte: bits 7:6, 5:3 and 2:0 (R53, R59). -/
structure Fields where
  top : Fin 4
  mid : RegNum
  low : RegNum
  deriving DecidableEq, Repr

/-- Split a ModRM byte into `mod`, `reg`, `rm`, or a SIB byte into `scale`, `index`, `base` (R53, R59). -/
def Fields.ofByte (b : Byte) : Fields :=
  { top := Fin.ofNat 4 (b.toNat / 64), mid := Fin.ofNat 8 (b.toNat / 8), low := Fin.ofNat 8 b.toNat }

/-- `ModRM = mod * 64 + reg * 8 + rm` (R53), and a SIB byte likewise (R59). -/
def Fields.toByte (f : Fields) : Byte := BitVec.ofNat 8 (f.top.val * 64 + f.mid.val * 8 + f.low.val)

/-- The value of bytes at increasing addresses, the first the least significant (R30, R57). -/
def leNat : List Byte → Nat
  | [] => 0
  | b :: bs => b.toNat + 256 * leNat bs

/-- The `n` bytes of a number, the least significant first (R30, R57). -/
def leBytes : Nat → Nat → List Byte
  | 0, _ => []
  | n + 1, v => BitVec.ofNat 8 v :: leBytes n (v / 256)

/-! ### Displacements (R57) -/

/-- One byte. -/
def takeByte : List Byte → Parsed Byte
  | b :: rest => .ok b rest
  | [] => .bad .truncated

/-- `disp16`: `b0 + 256 * b1` (R57). -/
def takeWord16 : List Byte → Parsed Word16
  | b0 :: b1 :: rest => .ok (BitVec.ofNat 16 (leNat [b0, b1])) rest
  | _ => .bad .truncated

/-- `disp32`: `b3 ++ b2 ++ b1 ++ b0` (R57). -/
def takeWord32 : List Byte → Parsed Word32
  | b0 :: b1 :: b2 :: b3 :: rest => .ok (BitVec.ofNat 32 (leNat [b0, b1, b2, b3])) rest
  | _ => .bad .truncated

/-- The displacement a 32-bit form with a base has: none, disp8 or disp32 for `mod` 0, 1, 2 (R58). -/
def takeDisp32 (mod : Fin 4) (bs : List Byte) : Parsed Disp32 :=
  if mod = 0 then .ok .none bs
  else if mod = 1 then (takeByte bs).andThen fun v rest => .ok (.d8 v) rest
  else (takeWord32 bs).andThen fun v rest => .ok (.d32 v) rest

/-- The displacement a 16-bit form with registers has: none, disp8 or disp16 for `mod` 0, 1, 2 (R60). -/
def takeDisp16 (mod : Fin 4) (bs : List Byte) : Parsed Disp16 :=
  if mod = 0 then .ok .none bs
  else if mod = 1 then (takeByte bs).andThen fun v rest => .ok (.d8 v) rest
  else (takeWord16 bs).andThen fun v rest => .ok (.d16 v) rest

/-! ### Memory operands (R58, R59, R60) -/

/-- The index a SIB byte's index field names: 4 is no index (R59). -/
def indexOf (field : RegNum) : Option RegNum := if field = 4 then none else some field

/-- A memory operand of the form with a SIB byte, from the bytes after ModRM (R59). -/
def takeSib (mod : Fin 4) (bs : List Byte) : Parsed MemOperand :=
  (takeByte bs).andThen fun b rest =>
    let f := Fields.ofByte b
    if mod = 0 ∧ f.low = 5 then
      (takeWord32 rest).andThen fun d rest => .ok (.sibNoBase f.top (indexOf f.mid) d) rest
    else
      (takeDisp32 mod rest).andThen fun d rest => .ok (.sib f.top (indexOf f.mid) f.low d) rest

/-- A memory operand under 32-bit addressing, from the bytes after ModRM (R58). -/
def takeMem32 (mod : Fin 4) (rm : RegNum) (bs : List Byte) : Parsed MemOperand :=
  if rm = 4 then takeSib mod bs
  else if mod = 0 ∧ rm = 5 then (takeWord32 bs).andThen fun d rest => .ok (.abs32 d) rest
  else (takeDisp32 mod bs).andThen fun d rest => .ok (.base32 rm d) rest

/-- A memory operand under 16-bit addressing, from the bytes after ModRM (R60). -/
def takeMem16 (mod : Fin 4) (rm : RegNum) (bs : List Byte) : Parsed MemOperand :=
  if mod = 0 ∧ rm = 6 then (takeWord16 bs).andThen fun d rest => .ok (.abs16 d) rest
  else (takeDisp16 mod bs).andThen fun d rest => .ok (.base16 rm d) rest

/-- A memory operand under the given address size (R56). -/
def takeMem : AddrSize → Fin 4 → RegNum → List Byte → Parsed MemOperand
  | .a32 => takeMem32
  | .a16 => takeMem16

/-- The source operand: register `rm` when `mod` is 3 (R55), otherwise memory (R56). -/
def takeOperand (size : AddrSize) (mod : Fin 4) (rm : RegNum) (bs : List Byte) : Parsed Operand :=
  if mod = 3 then .ok (.reg rm) bs
  else (takeMem size mod rm bs).andThen fun m rest => .ok (.mem m) rest

/-! ### Prefixes and opcodes (R52, R50) -/

/-- The prefix a byte is, of those the model admits (R52). -/
def prefixOf (b : Byte) : Option Prefix :=
  if b = 0x66#8 then some .opSize
  else if b = 0x67#8 then some .addrSize
  else if b = 0x26#8 then some (.seg .es)
  else if b = 0x2E#8 then some (.seg .cs)
  else if b = 0x36#8 then some (.seg .ss)
  else if b = 0x3E#8 then some (.seg .ds)
  else if b = 0x64#8 then some (.seg .fs)
  else if b = 0x65#8 then some (.seg .gs)
  else none

/-- Whether a byte is LOCK or a repeat prefix, which are refused by name (R52, R63). -/
def refusedPrefix (b : Byte) : Bool := b == 0xF0#8 || b == 0xF2#8 || b == 0xF3#8

/-- The lane width the second opcode byte selects: 0x74, 0x75, 0x76 (R50). -/
def laneOf (op : Byte) : Option LaneWidth :=
  if op = 0x74#8 then some .byte
  else if op = 0x75#8 then some .word
  else if op = 0x76#8 then some .dword
  else none

/-- The prefix bytes, up to the first byte that is none of them (the loop of R63). -/
def takePrefixes (seen : List Prefix) : List Byte → Parsed (List Prefix)
  | [] => .bad .truncated
  | b :: bs =>
    match prefixOf b with
    | some p => if p.clashes seen then .bad .prefixNotAdmitted else takePrefixes (seen ++ [p]) bs
    | none => .ok seen (b :: bs)

/-- The two opcode bytes after the prefixes (R63). -/
def takeOpcode (bs : List Byte) : Parsed LaneWidth :=
  (takeByte bs).andThen fun b rest =>
    if refusedPrefix b then .bad .prefixNotAdmitted
    else if b ≠ 0x0F#8 then .bad .notInScope
    else (takeByte rest).andThen fun op rest =>
      match laneOf op with
      | some w => .ok w rest
      | none => .bad .notInScope

/-- The decoder of R63: the instruction at the head of a byte list and the bytes after it. 0x66 among the prefixes selects
the `xmm` row (R50). -/
def decode (dflt : AddrSize) (bs : List Byte) : Parsed Instr :=
  (takePrefixes [] bs).andThen fun ps rest =>
    (takeOpcode rest).andThen fun w rest =>
      (takeByte rest).andThen fun b rest =>
        let f := Fields.ofByte b
        (takeOperand (addressSize dflt ps) f.top f.low rest).andThen fun o rest =>
          .ok (Instr.form w (decide (.opSize ∈ ps)) ps f.mid o) rest

/-! ### The encoder -/

/-- The byte of a prefix (R52). -/
def Prefix.toByte : Prefix → Byte
  | .opSize => 0x66#8
  | .addrSize => 0x67#8
  | .seg .es => 0x26#8
  | .seg .cs => 0x2E#8
  | .seg .ss => 0x36#8
  | .seg .ds => 0x3E#8
  | .seg .fs => 0x64#8
  | .seg .gs => 0x65#8

/-- The second opcode byte of a lane width (R50). -/
def LaneWidth.opcode : LaneWidth → Byte
  | .byte => 0x74#8
  | .word => 0x75#8
  | .dword => 0x76#8

/-- The `mod` of a displacement with a base (R58). -/
def Disp32.mod : Disp32 → Fin 4
  | .none => 0
  | .d8 _ => 1
  | .d32 _ => 2

/-- The bytes of a displacement (R57). -/
def Disp32.encode : Disp32 → List Byte
  | .none => []
  | .d8 v => [v]
  | .d32 v => leBytes 4 v.toNat

/-- The `mod` of a displacement with registers (R60). -/
def Disp16.mod : Disp16 → Fin 4
  | .none => 0
  | .d8 _ => 1
  | .d16 _ => 2

/-- The bytes of a displacement (R57). -/
def Disp16.encode : Disp16 → List Byte
  | .none => []
  | .d8 v => [v]
  | .d16 v => leBytes 2 v.toNat

/-- The index field of a SIB byte (R59). -/
def indexField : Option RegNum → RegNum
  | none => 4
  | some r => r

/-- ModRM.mod of an operand (R53, R58 to R60). -/
def Operand.mod : Operand → Fin 4
  | .reg _ => 3
  | .mem (.abs32 _) | .mem (.abs16 _) | .mem (.sibNoBase _ _ _) => 0
  | .mem (.base32 _ d) | .mem (.sib _ _ _ d) => d.mod
  | .mem (.base16 _ d) => d.mod

/-- ModRM.rm of an operand (R53, R58 to R60). -/
def Operand.rm : Operand → RegNum
  | .reg r => r
  | .mem (.abs32 _) => 5
  | .mem (.abs16 _) => 6
  | .mem (.sib _ _ _ _) | .mem (.sibNoBase _ _ _) => 4
  | .mem (.base32 b _) => b
  | .mem (.base16 r _) => r

/-- The bytes after ModRM (R57 to R60). -/
def Operand.tail : Operand → List Byte
  | .reg _ => []
  | .mem (.abs32 d) => leBytes 4 d.toNat
  | .mem (.base32 _ d) => d.encode
  | .mem (.sib s x b d) => Fields.toByte { top := s, mid := indexField x, low := b } :: d.encode
  | .mem (.sibNoBase s x d) => Fields.toByte { top := s, mid := indexField x, low := 5 } :: leBytes 4 d.toNat
  | .mem (.abs16 d) => leBytes 2 d.toNat
  | .mem (.base16 _ d) => d.encode

/-- The bytes of an instruction at increasing addresses (R51). -/
def encode (i : Instr) : List Byte :=
  i.prefixes.map Prefix.toByte
    ++ 0x0F#8 :: i.lane.opcode :: Fields.toByte { top := i.src.mod, mid := i.dst, low := i.src.rm } :: i.src.tail

/-! ### Opcode-table words -/

/-- The first `n` bytes of a number written as the table writes one, the first byte highest (R67). -/
def bigEndianBytes : Nat → Nat → List Byte
  | 0, _ => []
  | n + 1, v => BitVec.ofNat 8 (v / 256 ^ n) :: bigEndianBytes n v

/-- The bytes in memory of an instruction given as a number of spec/opcode_table.json. The table takes the bytes of a row
as ONE number with the first byte in the high half (R67), so the byte at the lowest address is the highest of the `nbits`
bits; every byte after them is 0 (log 7). -/
def tableWordBytes (nbits w : Nat) : List Byte :=
  let n := (nbits + 7) / 8
  bigEndianBytes n w ++ List.replicate (Config.maxLength - n) 0#8

/-- The instruction the decoder reads from a number of spec/opcode_table.json, under the default address size of the machine
at reset, 16 (R56; log 7). -/
def decodeTableWord (nbits w : Nat) : Option Instr :=
  match decode .a16 (tableWordBytes nbits w) with
  | .ok i _ => some i
  | .bad _ => none

end Sys2Proof
end

