-- ==== Sys2Proof/Machine/State.lean ====
section
/-! DEFINITION. The state of the machine as plain data (spec/10_state.md R10 to R25, spec/20_memory.md R31 to R37), the
reasons a step can stop (spec/60_exceptions.md R90, R99; spec/00_scope.md R7), and the state after reset (R25, logs 4, 5, 23). -/

namespace Sys2Proof.Machine

/-- Why the machine stops with a fault: the exceptions of R90, each terminal (R99, log 9). Every meaning raises them through
`raise` of Machine/Ops.lean, before anything is written (R100). Safe: the run does not continue, so nothing can be proved of
what follows. -/
inductive Fault where
  /-- #GP(0), raised by the operand read (R91). Safe. -/
  | gp
  /-- #SS(0), raised by the operand read in Protected mode (R92). Safe. -/
  | ss
  /-- #PF(fault-code), raised by the translation of an operand byte (R93); the code is whatever translation answers. Safe. -/
  | pf (code : Nat)
  /-- #UD, raised by the control tests (R94). Safe. -/
  | ud
  /-- #NM, raised by the control tests (R96). Safe. -/
  | nm
  /-- #MF, raised by the control tests of a 64-bit operation (R95). Safe. -/
  | mf
  deriving DecidableEq, Repr

/-- The error code of an exception (R90): 0 for #GP(0) and #SS(0), the fault code for #PF, none for the others. -/
def Fault.errorCode : Fault → Option Nat
  | .gp | .ss => some 0
  | .pf code => some code
  | .ud | .nm | .mf => none

/-- The vector number of an exception (R90). PRESUMED by the spec itself (G8); nothing in the model reads it (log 21). -/
def Fault.vector : Fault → Nat
  | .ud => 6
  | .nm => 7
  | .ss => 12
  | .gp => 13
  | .pf _ => 14
  | .mf => 16

/-- Why a step is refused: the situations to which the spec gives no meaning and which it refuses by name (R7 `refuse`).
Each is safe: nothing can be proved of what the hardware does there. -/
inductive Refusal where
  /-- Answered by exec's arm of an instruction without a meaning. Safe. -/
  | notModelled (mnemonic : String)
  /-- LOCK, a repeat prefix, a repeated prefix or two segment prefixes (R52), found by the decoder. Safe. -/
  | prefixNotAdmitted
  /-- Bytes that are none of the six encodings (R63, R64), found by the decoder. Safe. -/
  | notInScope
  /-- The instruction or its successor crosses the top of the code segment (R14), found by the fetch or at completion. Safe. -/
  | fetchWrap
  /-- An instruction byte outside the CS limit, or whose translation page-faults (R48), found by the fetch. Safe. -/
  | fetchFault
  /-- A memory operand in a segment that may not be read through (R33), found by the operand read. Safe. -/
  | unusableSegment
  /-- A 128-bit memory operand in a segment whose base is no multiple of 16 (R36), found by the operand read. Safe. -/
  | unalignedSegmentBase
  /-- A misaligned 64-bit memory operand with alignment checking on (R39), found by the operand read. Safe. -/
  | alignmentCheck
  /-- A processor without MMX technology (R5, 92_eei_decisions.md D18), found by every form. Safe. -/
  | noMMX
  deriving DecidableEq, Repr

/-- What an operation of the machine answers: a value, a fault or a refusal. -/
abbrev Result (α : Type) := Host.Outcome α Fault Refusal

/-- A range of offsets of a segment, both ends inside (R33; log 2). -/
structure OffsetRange where
  first : Word32
  last : Word32
  deriving DecidableEq, Repr

/-- What the machine needs of a segment register (R15, R33): the selector it holds, which gives `SegBase` in Real and V86 mode
(R35); the base the platform supplies, which is `SegBase` in Protected mode (R33, log 20); the offsets inside its limit, which
decide `SegLimitOK` (log 2); and `SegUsable`. -/
structure Segment where
  selector : Word16
  base : Word32
  inside : List OffsetRange
  usable : Bool
  deriving DecidableEq, Repr

/-- One entry of the translation of R37 (log 3): the linear addresses `first` to `last` under one kind of access go to
consecutive physical addresses from `result`'s, or page-fault with `result`'s code. -/
structure MapEntry where
  first : Word32
  last : Word32
  access : Access
  result : Translated
  deriving DecidableEq, Repr

/-- The parameters of R5 that are fixed for a processor and its platform and that the spec leaves OPEN (log 1): held in the
state so that every claim quantifies over them; no instruction writes them. -/
structure Platform where
  hasMMX : Bool
  hasSSE2 : Bool
  codeAddrSize : AddrSize
  alignmentCheckEnabled : Bool
  pageMap : List MapEntry
  deriving DecidableEq, Repr

/-- Memory: the bytes that differ from what an unlisted address reads as, by physical address, rising (R31; log 5). -/
abbrev Memory := List Host.Cell

/-- The state of the machine (the table at the head of spec/10_state.md). `draw` is the model's own: the argument of the free
choices of R40 and R37 (log 10). -/
structure State where
  mm : Vector Word64 8
  xmm : Vector Word128 8
  gpr : Vector Word32 8
  eip : Word32
  segs : Vector Segment 6
  cr0EM : Bool
  cr0TS : Bool
  cr4OSFXSR : Bool
  x87Pending : Bool
  mode : Mode
  mem : Memory
  plat : Platform
  draw : Nat
  deriving DecidableEq, Repr

/-- A segment by default: flat, base 0, every offset up to 0xFFFFFFFF inside the limit, usable (R5, R33, 92_eei_decisions.md
D9). -/
def Segment.flat : Segment :=
  { selector := 0#16, base := 0#32, inside := [{ first := 0#32, last := Config.flatLimit }], usable := true }

/-- The platform by default (R5, R37): translation is the identity. The address size of Protected mode code has no default. -/
def Platform.byDefault (codeAddrSize : AddrSize) : Platform :=
  { hasMMX := Config.defaultHasMMX, hasSSE2 := Config.defaultHasSSE2, codeAddrSize := codeAddrSize
    alignmentCheckEnabled := Config.defaultAlignmentCheck, pageMap := [] }

/-- A state with every parameter of R5 that has a default at it: flat segments and the default platform. -/
def State.onDefaultPlatform (s : State) (codeAddrSize : AddrSize) : State :=
  { s with segs := Vector.replicate 6 Segment.flat, plat := Platform.byDefault codeAddrSize }

/-- The code segment after RESET (R25). PRESUMED, log 4, and not the default of R5; usable: log 23. -/
def Segment.resetCode : Segment :=
  { Segment.flat with
    selector := Config.resetCsSelector, base := Config.resetCsBase
    inside := [{ first := 0#32, last := Config.resetLimit }] }

/-- Every other segment after RESET (R25). PRESUMED, log 4, and not the default of R5; usable: log 23. -/
def Segment.resetData : Segment := { Segment.flat with inside := [{ first := 0#32, last := Config.resetLimit }] }

/-- The platform at reset: the default one of R5 (logs 3, 22, 23). -/
def Platform.reset : Platform := Platform.byDefault Config.resetCodeAddrSize

/-- The machine right after reset. The spec fixes no reset value (R25, R110); these are the hardware's, which R25 lists for
information. PRESUMED, log 4; memory: DESIGN CHOICE, log 5; the draw number: DESIGN CHOICE, log 10. -/
def State.reset : State :=
  { mm := Vector.replicate 8 0#64
    xmm := Vector.replicate 8 0#128
    gpr := #v[0#32, 0#32, Config.resetSignature, 0#32, 0#32, 0#32, 0#32, 0#32]
    eip := Config.resetEip
    segs := #v[Segment.resetData, Segment.resetCode, Segment.resetData, Segment.resetData, Segment.resetData,
      Segment.resetData]
    cr0EM := false
    cr0TS := false
    cr4OSFXSR := false
    x87Pending := false
    mode := .realMode
    mem := []
    plat := Platform.reset
    draw := 0 }

end Sys2Proof.Machine
end

