-- ==== Sys2Proof/Machine/Ops.lean ====
section
/-! DEFINITION. The named operations over registers, memory, segments and translation (spec/00_scope.md R7,
spec/20_memory.md R30 to R37), the one way an exception is raised (spec/60_exceptions.md R99) and the one way an instruction
completes (spec/10_state.md R14). -/

namespace Sys2Proof.Machine

/-- Go on with the value of an operation; a fault or a refusal ends the instruction (R70). -/
def andThen {α β : Type} (o : Result α) (f : α → Result β) : Result β :=
  match o with
  | .next v => f v
  | .fault e => .fault e
  | .refused r => .refused r

/-- TAKING AN EXCEPTION (R7 `raise`, R99, R100). The spec gives an exception no delivery: the step returns a fault that names
the exception and its code, the state is the state before the instruction, and the run does not continue (log 9). There is no
return from an exception (R101). -/
def raise {α : Type} (e : Fault) : Result α := .fault e

/-! ### Registers -/

/-- `MM[i]` (R10). -/
def State.readMM (s : State) (i : RegNum) : Word64 := s.mm[i]

/-- `MM[i] <- v` (R10). -/
def State.writeMM (s : State) (i : RegNum) (v : Word64) : State := { s with mm := s.mm.set i.val v i.isLt }

/-- `XMM[i]` (R11). -/
def State.readXMM (s : State) (i : RegNum) : Word128 := s.xmm[i]

/-- `XMM[i] <- v` (R11). -/
def State.writeXMM (s : State) (i : RegNum) (v : Word128) : State := { s with xmm := s.xmm.set i.val v i.isLt }

/-- `GPR32[i]` (R12). -/
def State.gpr32 (s : State) (i : RegNum) : Word32 := s.gpr[i]

/-- `GPR16[i]`, the low 16 bits of `GPR32[i]` (R12). -/
def State.gpr16 (s : State) (i : RegNum) : Word16 := (s.gpr32 i).extractLsb' 0 16

/-- `EIP <- v` (R13). -/
def State.setEip (s : State) (v : Word32) : State := { s with eip := v }

/-- A segment register (R15). -/
def State.segment (s : State) (r : SegReg) : Segment := s.segs[r.num]

/-! ### Memory -/

/-- What a byte of memory that is not listed reads as. DESIGN CHOICE, log 5. -/
def Memory.unlisted : Byte := 0#8

/-- The byte at a physical address (R31). -/
def Memory.read : Memory → Nat → Byte
  | [], _ => Memory.unlisted
  | (a, b) :: rest, x => if a = x then b else Memory.read rest x

/-- Put a byte at a physical address. No in-scope instruction does (R41); a program is placed so (log 6). -/
def Memory.write : Memory → Nat → Byte → Memory
  | [], x, v => if v = Memory.unlisted then [] else [(x, v)]
  | (a, b) :: rest, x, v =>
    if x < a then (if v = Memory.unlisted then (a, b) :: rest else (x, v) :: (a, b) :: rest)
    else if x = a then (if v = Memory.unlisted then rest else (x, v) :: rest)
    else (a, b) :: Memory.write rest x v

/-- Whether every address is at least `low`, the addresses rise, and no entry equals what an unlisted address reads as. -/
def Memory.wfFrom (low : Nat) : Memory → Bool
  | [] => true
  | (a, b) :: rest => decide (low ≤ a) && b != Memory.unlisted && Memory.wfFrom (a + 1) rest

/-- The canonical form of memory: equal memories are equal lists. -/
def Memory.wf (m : Memory) : Bool := Memory.wfFrom 0 m

/-- `MemRead(addr, n)`: the byte at `addr + k` is bits 8k+7 to 8k (R30). -/
def State.memRead (s : State) (addr n : Nat) : BitVec (8 * n) :=
  BitVec.ofNat (8 * n) (leNat ((List.range n).map fun k => s.mem.read (addr + k)))

/-! ### Segments and translation -/

/-- Whether one offset is inside a segment's limit (R33, log 2). -/
def Segment.holds (g : Segment) (offset : Nat) : Bool :=
  g.inside.any fun r => decide (r.first.toNat ≤ offset) && decide (offset ≤ r.last.toNat)

/-- `SegLimitOK(seg, ea, n)`: the bytes at offsets `ea` to `ea + n - 1`, unbounded integers, are all inside (R33, R34). -/
def State.segLimitOK (s : State) (seg : SegReg) (ea n : Nat) : Bool :=
  (List.range n).all fun k => (s.segment seg).holds (ea + k)

/-- `SegBase(seg)`: in Real and V86 mode 16 times the selector (R35), in Protected mode the base the platform supplies (R33). -/
def State.segBase (s : State) (seg : SegReg) : Word32 :=
  match s.mode with
  | .protectedMode => (s.segment seg).base
  | .realMode | .v86Mode => BitVec.ofNat 32 (16 * (s.segment seg).selector.toNat)

/-- The linear address of byte `k` of an access: `(SegBase(seg) + ea + k) mod 2^32` (R35). -/
def State.linear (s : State) (seg : SegReg) (ea : Word32) (k : Nat) : Word32 :=
  s.segBase seg + ea + BitVec.ofNat 32 k

/-- The answer of one entry of the translation for a linear address inside it (log 3). -/
def MapEntry.answer (e : MapEntry) (lin : Word32) : Translated :=
  match e.result with
  | .phys p => .phys (p + (lin.toNat - e.first.toNat))
  | .pageFault code => .pageFault code

/-- The first entry that covers the address decides; where none does, the translation is the identity (R37, log 3). -/
def lookup : List MapEntry → Word32 → Access → Translated
  | [], lin, _ => .phys lin.toNat
  | e :: rest, lin, access =>
    if e.access = access ∧ e.first ≤ lin ∧ lin ≤ e.last then e.answer lin else lookup rest lin access

/-- `Translate(lin, access)`; in Real mode the identity, never faulting (R37). -/
def State.translate (s : State) (lin : Word32) (access : Access) : Translated :=
  match s.mode with
  | .realMode => .phys lin.toNat
  | .protectedMode | .v86Mode => lookup s.plat.pageMap lin access

/-- `DefaultAddrSize`: 16 in Real and V86 mode, as the code segment says in Protected mode (R56, log 17). -/
def State.defaultAddrSize (s : State) : AddrSize :=
  match s.mode with
  | .protectedMode => s.plat.codeAddrSize
  | .realMode | .v86Mode => .a16

/-- The top of the offset space of the code segment (R14). -/
def State.offsetTop (s : State) : Nat :=
  match s.mode with
  | .protectedMode => 0xFFFFFFFF
  | .realMode | .v86Mode => 0xFFFF

/-! ### Completion -/

/-- `EIP <- EIP + len`, refused when the sum passes the top of the offset space (R14, log 12): the last step of every
instruction, applied to the state with the destination written (R70 steps 8 and 9). -/
def advance (len : Nat) (t : State) : Result State :=
  if t.offsetTop < t.eip.toNat + len then .refused .fetchWrap
  else .next (t.setEip (t.eip + BitVec.ofNat 32 len))

end Sys2Proof.Machine
end

