-- ==== Sys2Proof/Machine/Flags.lean ====
section
/-! DEFINITION. Flags: there are none to compute ("Flags affected: None.", spec/10_state.md R20, spec/40_pcmpeq.md R80), so this
file holds the tests of the control and status bits that every form makes before its operands are read: steps 1 to 4 of
spec/40_pcmpeq.md R70, in the order of spec/60_exceptions.md R98. -/

namespace Sys2Proof.Machine

/-- Steps 1, 3 and 4 of R70, for a 64-bit operation: #UD (R94), #NM (R96), #MF (R95). -/
def controlTests64 (s : State) : Option Fault :=
  if s.cr0EM then some .ud
  else if s.cr0TS then some .nm
  else if s.x87Pending then some .mf
  else none

/-- Steps 1 to 3 of R70, for a 128-bit operation: #UD (R94), #NM (R96). -/
def controlTests128 (s : State) : Option Fault :=
  if s.cr0EM then some .ud
  else if s.cr4OSFXSR = false then some .ud
  else if s.cr0TS then some .nm
  else none

/-- Go on when no control test raises an exception. -/
def afterTests {α : Type} (test : Option Fault) (go : Result α) : Result α :=
  match test with
  | some e => raise e
  | none => go

end Sys2Proof.Machine
end

