-- ==== Sys2Proof/Machine/Operands.lean ====
section
/-! DEFINITION. Operands: the effective address and the segment of a memory operand (spec/30_encoding.md R56 to R61), the
checked operand read (spec/20_memory.md R33 to R40) and the value of a source operand (spec/40_pcmpeq.md R72). -/

namespace Sys2Proof.Machine

/-! ### The effective address -/

/-- The value a 32-bit form adds for its displacement, sign-extended from 8 bits (R57, R58). -/
def dispValue32 : Disp32 → Word32
  | .none => 0#32
  | .d8 v => v.signExtend 32
  | .d32 v => v

/-- The value a 16-bit form adds for its displacement, sign-extended from 8 bits (R57, R60). -/
def dispValue16 : Disp16 → Word16
  | .none => 0#16
  | .d8 v => v.signExtend 16
  | .d16 v => v

/-- `index_term` of R59. -/
def indexTerm (s : State) (scale : Fin 4) : Option RegNum → Word32
  | none => 0#32
  | some r => s.gpr32 r <<< scale.val

/-- The registers summed by row `rm` of 16-bit addressing (R60): BX is 3, BP is 5, SI is 6, DI is 7. -/
def baseSum16 (s : State) (rm : RegNum) : Word16 :=
  match rm with
  | 0 => s.gpr16 3 + s.gpr16 6
  | 1 => s.gpr16 3 + s.gpr16 7
  | 2 => s.gpr16 5 + s.gpr16 6
  | 3 => s.gpr16 5 + s.gpr16 7
  | 4 => s.gpr16 6
  | 5 => s.gpr16 7
  | 6 => s.gpr16 5
  | 7 => s.gpr16 3

/-- The effective address of a memory operand (R58, R59, R60): sums modulo 2^32, or modulo 2^16 and zero-extended. -/
def effectiveAddress (s : State) : MemOperand → Word32
  | .abs32 d => d
  | .base32 b d => s.gpr32 b + dispValue32 d
  | .sib sc x b d => s.gpr32 b + indexTerm s sc x + dispValue32 d
  | .sibNoBase sc x d => indexTerm s sc x + d
  | .abs16 d => d.setWidth 32
  | .base16 rm d => (baseSum16 s rm + dispValue16 d).setWidth 32

/-! ### The segment -/

/-- The default segment of a memory operand: SS when EBP, ESP or BP is the base, DS otherwise (R61). -/
def defaultSegment : MemOperand → SegReg
  | .base32 b _ => if b = 5 then .ss else .ds
  | .sib _ _ b _ => if b = 4 ∨ b = 5 then .ss else .ds
  | .base16 rm _ => if rm = 2 ∨ rm = 3 ∨ rm = 6 then .ss else .ds
  | .abs32 _ | .sibNoBase _ _ _ | .abs16 _ => .ds

/-- The segment a prefix names, if an instruction has a segment prefix (R52). -/
def segmentPrefix : List Prefix → Option SegReg
  | [] => none
  | .seg r :: _ => some r
  | .opSize :: ps | .addrSize :: ps => segmentPrefix ps

/-- The segment of a memory operand (R61). -/
def operandSegment (ps : List Prefix) (m : MemOperand) : SegReg := (segmentPrefix ps).getD (defaultSegment m)

/-! ### The checked operand read (R38) -/

/-- `limit_bad` of R38: outside the segment's limit in Protected mode, past 0xFFFF in Real and V86 mode (R34). -/
def limitBad (s : State) (seg : SegReg) (ea : Word32) (n : Nat) : Bool :=
  match s.mode with
  | .protectedMode => !s.segLimitOK seg ea.toNat n
  | .realMode | .v86Mode => decide (0xFFFF < ea.toNat + n - 1)

/-- `align_bad` of R38: a 16-byte operand whose linear address is no multiple of 16 (R36). -/
def alignBad (s : State) (seg : SegReg) (ea : Word32) (n : Nat) : Bool :=
  decide (n = 16) && decide ((s.segBase seg + ea).toNat % 16 ≠ 0)

/-- Whether the segment fault of an operand is #SS(0) and not #GP(0): Protected mode, through SS (R34). -/
def stackChecked (s : State) (seg : SegReg) : Bool := decide (s.mode = .protectedMode) && decide (seg = .ss)

/-- The refusals of R38: an unusable segment (R33), a 16-byte operand in a segment whose base is no multiple of 16 (R36), a
misaligned 8-byte operand with alignment checking on (R39). -/
def operandRefusal (s : State) (seg : SegReg) (ea : Word32) (n : Nat) : Option Refusal :=
  if (s.segment seg).usable = false then some .unusableSegment
  else if n = 16 ∧ (s.segBase seg).toNat % 16 ≠ 0 then some .unalignedSegmentBase
  else if n = 8 ∧ s.plat.alignmentCheckEnabled = true ∧ ea.toNat % 8 ≠ 0 then some .alignmentCheck
  else none

/-- The segment exceptions of R38: #SS(0) or #GP(0) (R34, R36), and the draw between them when a 16-byte operand in SS is both
misaligned and outside the limit in Protected mode (R40, log 10). -/
def segmentFault (s : State) (seg : SegReg) (ea : Word32) (n : Nat) : Option Fault :=
  if limitBad s seg ea n && alignBad s seg ea n && stackChecked s seg then
    some (if Config.stackFaultDrawn s.draw s.eip ea then .ss else .gp)
  else if limitBad s seg ea n && stackChecked s seg then some .ss
  else if limitBad s seg ea n || alignBad s seg ea n then some .gp
  else none

/-- What translation answers for each byte of an operand, lowest first (R37, R38). -/
def translateOperand (s : State) (seg : SegReg) (ea : Word32) (n : Nat) : List Translated :=
  (List.range n).map fun k => s.translate (s.linear seg ea k) .dataRead

/-- The fault codes among the answers of translation, in byte order. -/
def faultCodes : List Translated → List Nat
  | [] => []
  | .phys _ :: ts => faultCodes ts
  | .pageFault code :: ts => code :: faultCodes ts

/-- The code that #PF reports when bytes fault with these codes: the one code when they agree, and when they differ one of
them, drawn (R37, log 11). -/
def reportedCode (s : State) (ea : Word32) (first : Nat) (others : List Nat) : Nat :=
  if others.all (· == first) then first
  else (first :: others).getD (Config.pageFaultDrawn s.draw s.eip ea % (others.length + 1)) first

/-- The byte of memory behind an answer of translation. -/
def State.byteBehind (s : State) : Translated → Byte
  | .phys p => s.mem.read p
  | .pageFault _ => Memory.unlisted

/-- The translation and the read of R38: #PF when a byte page-faults (R93), otherwise the bytes, little-endian (R30). -/
def readTranslated (s : State) (ea : Word32) (n : Nat) (ts : List Translated) : Result (BitVec (8 * n)) :=
  match faultCodes ts with
  | [] => .next (BitVec.ofNat (8 * n) (leNat (ts.map s.byteBehind)))
  | code :: codes => raise (.pf (reportedCode s ea code codes))

/-- `ReadOperand(seg, ea, n)` (R38). -/
def readOperand (s : State) (seg : SegReg) (ea : Word32) (n : Nat) : Result (BitVec (8 * n)) :=
  match operandRefusal s seg ea n with
  | some r => .refused r
  | none =>
    match segmentFault s seg ea n with
    | some e => raise e
    | none => readTranslated s ea n (translateOperand s seg ea n)

/-! ### The source operand's value (R72) -/

/-- The source of a 64-bit operation: `MM[rm]` or 8 bytes of memory (R72). -/
def source64 (s : State) (ps : List Prefix) : Operand → Result Word64
  | .reg r => .next (s.readMM r)
  | .mem m => readOperand s (operandSegment ps m) (effectiveAddress s m) 8

/-- The source of a 128-bit operation: `XMM[rm]` or 16 bytes of memory (R72). -/
def source128 (s : State) (ps : List Prefix) : Operand → Result Word128
  | .reg r => .next (s.readXMM r)
  | .mem m => readOperand s (operandSegment ps m) (effectiveAddress s m) 16

end Sys2Proof.Machine
end

