-- ==== Sys2Proof/Machine/Pcmpeq.lean ====
section
/-! DEFINITION. The packed compares for equality: the lane function (spec/40_pcmpeq.md R71), the execution template (R70) at
both operand sizes, and the meaning of each of the six forms (R73 to R78, and R79 on a processor without SSE2). -/

namespace Sys2Proof.Machine

/-! ### The lane function -/

/-- Lane `i` of a value seen as lanes of `w` bits (R71). -/
def laneAt {N : Nat} (w i : Nat) (v : BitVec N) : BitVec w := v.extractLsb' (w * i) w

/-- What lane `i` of the result holds: all 1s when the two lanes are equal, all 0s otherwise (R71). -/
def laneResult {N : Nat} (w i : Nat) (d s : BitVec N) : BitVec w :=
  if laneAt w i d = laneAt w i s then BitVec.allOnes w else 0#w

/-- The result's lanes 0 to `n - 1`, each in its place, and 0 above them. -/
def lanesBelow {N : Nat} (w : Nat) (d s : BitVec N) : Nat → BitVec N
  | 0 => 0#N
  | i + 1 => (laneResult w i d s).setWidth N <<< (w * i) ||| lanesBelow w d s i

/-- `PCMPEQ(w, N, d, s)` (R71): all `N / w` lanes. -/
def pcmpeq {N : Nat} (w : LaneWidth) (d s : BitVec N) : BitVec N := lanesBelow w.bits d s (N / w.bits)

/-! ### The execution template -/

/-- Every form is refused on a processor without MMX technology (R5, 92_eei_decisions.md D18; log 14). -/
def needMMX {α : Type} (s : State) (go : Result α) : Result α := if s.plat.hasMMX then go else .refused .noMMX

/-- R70 with N = 64: the tests, both operands read, the comparison, `MM[dst]` and `EIP` written. -/
def compare64 (w : LaneWidth) (ps : List Prefix) (dst : RegNum) (src : Operand) (s : State) : Result State :=
  needMMX s (afterTests (controlTests64 s) (andThen (source64 s ps src) fun v =>
    advance (instrLength ps src) (s.writeMM dst (pcmpeq w (s.readMM dst) v))))

/-- R70 with N = 128: the tests, both operands read, the comparison, `XMM[dst]` and `EIP` written. -/
def compare128 (w : LaneWidth) (ps : List Prefix) (dst : RegNum) (src : Operand) (s : State) : Result State :=
  needMMX s (afterTests (controlTests128 s) (andThen (source128 s ps src) fun v =>
    advance (instrLength ps src) (s.writeXMM dst (pcmpeq w (s.readXMM dst) v))))

/-! ### The six forms -/

/-- `PCMPEQB mm, mm/m64` (R73). -/
def execPcmpeqbMm (ps : List Prefix) (dst : RegNum) (src : Operand) (s : State) : Result State :=
  compare64 .byte ps dst src s

/-- `PCMPEQB xmm1, xmm2/m128` (R74); on a processor without SSE2 the 64-bit operation of the same bytes (R79). -/
def execPcmpeqbXmm (ps : List Prefix) (dst : RegNum) (src : Operand) (s : State) : Result State :=
  if s.plat.hasSSE2 then compare128 .byte ps dst src s else compare64 .byte ps dst src s

/-- `PCMPEQW mm, mm/m64` (R75). -/
def execPcmpeqwMm (ps : List Prefix) (dst : RegNum) (src : Operand) (s : State) : Result State :=
  compare64 .word ps dst src s

/-- `PCMPEQW xmm1, xmm2/m128` (R76); on a processor without SSE2 the 64-bit operation of the same bytes (R79). -/
def execPcmpeqwXmm (ps : List Prefix) (dst : RegNum) (src : Operand) (s : State) : Result State :=
  if s.plat.hasSSE2 then compare128 .word ps dst src s else compare64 .word ps dst src s

/-- `PCMPEQD mm, mm/m64` (R77). -/
def execPcmpeqdMm (ps : List Prefix) (dst : RegNum) (src : Operand) (s : State) : Result State :=
  compare64 .dword ps dst src s

/-- `PCMPEQD xmm1, xmm2/m128` (R78); on a processor without SSE2 the 64-bit operation of the same bytes (R79). -/
def execPcmpeqdXmm (ps : List Prefix) (dst : RegNum) (src : Operand) (s : State) : Result State :=
  if s.plat.hasSSE2 then compare128 .dword ps dst src s else compare64 .dword ps dst src s

end Sys2Proof.Machine
end

