-- ==== Sys2Proof/Machine/Dispatch.lean ====
section
/-! DEFINITION. Dispatch: one arm per constructor of `Instr`, each one call of its meaning. -/

namespace Sys2Proof.Machine

def exec (i : Instr) (s : State) : Host.Outcome State Fault Refusal :=
  match i with
  | .pcmpeqbMm ps dst src => Sys2Proof.Machine.execPcmpeqbMm ps dst src s
  | .pcmpeqbXmm ps dst src => Sys2Proof.Machine.execPcmpeqbXmm ps dst src s
  | .pcmpeqwMm ps dst src => Sys2Proof.Machine.execPcmpeqwMm ps dst src s
  | .pcmpeqwXmm ps dst src => Sys2Proof.Machine.execPcmpeqwXmm ps dst src s
  | .pcmpeqdMm ps dst src => Sys2Proof.Machine.execPcmpeqdMm ps dst src s
  | .pcmpeqdXmm ps dst src => Sys2Proof.Machine.execPcmpeqdXmm ps dst src s

end Sys2Proof.Machine
end

