-- ==== Sys2Proof/Machine/Fetch.lean ====
section
/-! DEFINITION. Instruction fetch (spec/20_memory.md R48, spec/10_state.md R13, R14) and decoding at `EIP`
(spec/30_encoding.md R63), and the placing of a table word where the fetch reads (log 6). -/

namespace Sys2Proof.Machine

/-- Byte `k` of the instruction at `EIP`: past the top of the offset space it is refused as FetchWrap (R14), outside the CS
limit or on a page fault as FetchFault (R48; log 13). -/
def fetchByte (s : State) (k : Nat) : Result Byte :=
  if s.offsetTop < s.eip.toNat + k then .refused .fetchWrap
  else if (s.segment .cs).holds (s.eip.toNat + k) = false then .refused .fetchFault
  else
    match s.translate (s.linear .cs s.eip k) .fetch with
    | .phys p => .next (s.mem.read p)
    | .pageFault _ => .refused .fetchFault

/-- Up to `n` bytes from byte `k` on, and the refusal that ended them early, if one did. -/
def fetchBytes (s : State) : Nat → Nat → List Byte × Option Refusal
  | 0, _ => ([], none)
  | n + 1, k =>
    match fetchByte s k with
    | .next b => (b :: (fetchBytes s n (k + 1)).1, (fetchBytes s n (k + 1)).2)
    | .fault _ => ([], none)
    | .refused r => ([], some r)

/-- The instruction at `EIP`. Only bytes the decoder needs must be fetchable (R48): bytes that end before the instruction
does are refused for the reason they end. No instruction is longer than the bytes fetched (R62). -/
def fetchDecode (s : State) : Result Instr :=
  match decode s.defaultAddrSize (fetchBytes s Config.maxLength 0).1 with
  | .ok i _ => .next i
  | .bad .prefixNotAdmitted => .refused .prefixNotAdmitted
  | .bad .notInScope => .refused .notInScope
  | .bad .truncated => .refused ((fetchBytes s Config.maxLength 0).2.getD .notInScope)

/-- Put bytes where the fetch reads byte `k` and the bytes after it; a byte whose translation page-faults is not placed. -/
def placeBytes (s : State) : Nat → List Byte → Memory → Memory
  | _, [], m => m
  | k, b :: bs, m =>
    match s.translate (s.linear .cs s.eip k) .fetch with
    | .phys p => placeBytes s (k + 1) bs (m.write p b)
    | .pageFault _ => placeBytes s (k + 1) bs m

end Sys2Proof.Machine
end

