-- ==== Sys2Proof/Machine/Step.lean ====
section
/-! DEFINITION. One step: the instruction at `EIP` is fetched, decoded and executed (spec/30_encoding.md R63,
spec/40_pcmpeq.md R70). Nothing happens between two instructions (spec/60_exceptions.md R104). -/

namespace Sys2Proof.Machine

/-- One step of the machine. -/
def step (s : State) : Host.Outcome State Fault Refusal := andThen (fetchDecode s) fun i => exec i s

/-- The state with an instruction of spec/opcode_table.json placed where `step` fetches its next instruction (logs 6, 7). -/
def State.withFetchWord (s : State) (nbits w : Nat) : State :=
  { s with mem := placeBytes s 0 (tableWordBytes nbits w) s.mem }

end Sys2Proof.Machine
end

