-- ==== Sys2Proof/Safety.lean ====
section
/-! DEFINITION. What the statements are made of: when a form is a 128-bit operation (spec/30_encoding.md R63), the conditions
under which an instruction executes without an exception (spec/70_reset_and_hazards.md R111) and the launch premises (R112), a run
and where it stops (spec/60_exceptions.md R99), a program and its end (R114), and the machine's invariant. -/

namespace Sys2Proof.Machine

/-- Whether a form is a 128-bit operation, `N = 128` of R63: an `xmm` row on a processor with SSE2 (R79 otherwise). -/
def wideOp (s : State) (i : Instr) : Bool := i.wide && s.plat.hasSSE2

/-- The size in bytes of a form's memory operand (R41). -/
def operandSize (s : State) (i : Instr) : Nat := if wideOp s i then 16 else 8

/-! ### Launch premises (R112) -/

/-- `NoUD64`: no 64-bit form raises #UD. -/
abbrev NoUD64 (s : State) : Prop := s.cr0EM = false

/-- `NoUD128`: no 128-bit form raises #UD. -/
abbrev NoUD128 (s : State) : Prop := s.cr0EM = false ∧ s.cr4OSFXSR = true

/-- `NoNM`: no form raises #NM. -/
abbrev NoNM (s : State) : Prop := s.cr0TS = false

/-- `NoMF`: no 64-bit form raises #MF. -/
abbrev NoMF (s : State) : Prop := s.x87Pending = false

/-! ### When an instruction executes without an exception (R111) -/

/-- The rows of R111 about control state, and a processor with MMX technology (R5). -/
structure ControlReady (s : State) (i : Instr) : Prop where
  mmx : s.plat.hasMMX = true
  em : s.cr0EM = false
  ts : s.cr0TS = false
  osfxsr : wideOp s i = true → s.cr4OSFXSR = true
  x87 : wideOp s i = false → s.x87Pending = false

/-- The operand inside its segment's limit, or in Real and V86 mode inside 0 to 0xFFFF (R34): every byte of it. -/
def InsideLimit (s : State) (seg : SegReg) (ea n : Nat) : Prop :=
  match s.mode with
  | .protectedMode => ∀ k < n, (s.segment seg).holds (ea + k) = true
  | .realMode | .v86Mode => ea + n - 1 ≤ 0xFFFF

/-- An operand of `n` bytes at an offset of a segment that R38 reads: none of its refusals and none of its exceptions. -/
structure OperandReadable (s : State) (seg : SegReg) (ea : Word32) (n : Nat) : Prop where
  usable : (s.segment seg).usable = true
  inside : InsideLimit s seg ea.toNat n
  aligned : n = 16 → (s.segBase seg).toNat % 16 = 0 ∧ ea.toNat % 16 = 0
  unchecked : n = 8 → s.plat.alignmentCheckEnabled = true → ea.toNat % 8 = 0
  mapped : ∀ k < n, ∃ p, s.translate (s.linear seg ea k) .dataRead = .phys p

/-- The rows of R111 about the memory operand; a register source is always readable (R55). -/
def SourceReadable (s : State) (i : Instr) : Prop :=
  match i.src with
  | .reg _ => True
  | .mem m => OperandReadable s (operandSegment i.prefixes m) (effectiveAddress s m) (operandSize s i)

/-- The instruction and its successor do not cross the top of the offset space (R14). -/
def RoomAhead (s : State) (i : Instr) : Prop := s.eip.toNat + i.length ≤ s.offsetTop

/-- Byte `k` of a memory operand: the byte behind the translation of its linear address (R30, R35, R37). -/
def operandByte (s : State) (seg : SegReg) (ea : Word32) (k : Nat) : Byte :=
  s.byteBehind (s.translate (s.linear seg ea k) .dataRead)

/-- The value of a memory operand of `n` bytes, little-endian (R30, R38). -/
def operandValue (s : State) (seg : SegReg) (ea : Word32) (n : Nat) : BitVec (8 * n) :=
  BitVec.ofNat (8 * n) (leNat ((List.range n).map (operandByte s seg ea)))

/-! ### Runs and programs (R99, R114) -/

/-- `k` steps, stopping at the first fault or refusal (R99); it is the host's `Host.Core.run` of this machine. -/
def run : Nat → State → Result State
  | 0, s => .next s
  | k + 1, s => andThen (step s) (run k)

/-- A program: a finite sequence of in-scope instructions laid end to end (R114). -/
abbrev Program := List Instr

/-- The bytes of a program (R114). -/
def Program.bytes (p : Program) : List Byte := p.flatMap encode

/-- The program stands in memory from `EIP` on, every byte fetchable (R48, R114). -/
def PlacedAtEip (s : State) (p : Program) : Prop :=
  ∀ k (h : k < (Program.bytes p).length), fetchByte s k = .next (Program.bytes p)[k]

/-- A program's instructions executed one after the other, the first fault or refusal ending it (40_pcmpeq.md R70, R99). -/
def execAll : Program → State → Result State
  | [], s => .next s
  | i :: p, s => andThen (exec i s) (execAll p)

/-- A run of a program from offset `start` has ended normally (R114): `EIP` is at the first byte after the last. -/
def EndedNormally (start : Word32) (p : Program) (t : State) : Prop :=
  t.eip.toNat = start.toNat + (Program.bytes p).length

/-! ### The invariant -/

/-- What every step keeps: memory in canonical form, and in Real and V86 mode `EIP` inside 0 to 0xFFFF (R14). -/
structure Invariant (s : State) : Prop where
  memory : s.mem.wf = true
  eipInside : s.mode ≠ .protectedMode → s.eip.toNat ≤ 0xFFFF

end Sys2Proof.Machine
end

