-- ==== Sys2Proof/Certificates/Slice0/Obligations.lean ====
section
/-! DEFINITION. The statements for the provers, from the numbered rules of spec/. Each docstring names the rule it formalises, or
the log entry it rests on where it states a choice of the model. -/

open Sys2Proof Sys2Proof.Machine

/-! ### Encoding and decoding -/

/-- 30_encoding.md R50 to R63: what the encoder writes for a well-formed instruction the decoder reads back whole, with every
prefix, register number and displacement, whatever bytes follow. -/
def Obligations.EncodeThenDecodeGivesTheInstruction : Prop :=
  ∀ (dflt : AddrSize) (i : Instr) (rest : List Byte), i.wf dflt = true → decode dflt (encode i ++ rest) = .ok i rest

/-- 30_encoding.md R50 to R63: what the decoder accepts is a well-formed instruction, and its encoding is exactly the bytes
read: every instruction has one encoding for its prefixes, and no bit of the bytes is dropped. -/
def Obligations.DecodeThenEncodeGivesTheBytes : Prop :=
  ∀ (dflt : AddrSize) (bs rest : List Byte) (i : Instr),
    decode dflt bs = .ok i rest → i.wf dflt = true ∧ encode i ++ rest = bs

/-- 30_encoding.md R62, with the prefixes that decision D12 admits: the length in bytes of a decoded instruction, its formula,
and its bounds 3 and 11, both reached; the 15 of the spec's inference is not. -/
def Obligations.DecodedLengthFollowsTheFormula : Prop :=
  (∀ (dflt : AddrSize) (bs rest : List Byte) (i : Instr), decode dflt bs = .ok i rest →
    bs.length = i.length + rest.length ∧
    i.length = i.prefixes.length + 2 + 1
      + (match i.src with | .reg _ => 0 | .mem m => m.sibBytes)
      + (match i.src with | .reg _ => 0 | .mem m => m.dispBytes) ∧
    (∀ m, i.src = .mem m → m.sibBytes ≤ 1 ∧ (m.dispBytes = 0 ∨ m.dispBytes = 1 ∨ m.dispBytes = 2 ∨ m.dispBytes = 4)) ∧
    3 ≤ i.length ∧ i.length ≤ 11 ∧ i.length < 15) ∧
  (∃ i, decode .a32 [0x0F#8, 0x74#8, 0xC0#8] = .ok i [] ∧ i.length = 3) ∧
  (∃ bs i, decode .a16 bs = .ok i [] ∧ i.length = 11)

/-- 30_encoding.md R52, R63 (decision D12): after admitted prefixes, LOCK, a repeat prefix, a repeated prefix or a second
segment prefix is refused by name. -/
def Obligations.RefusedPrefixesAreRefused : Prop :=
  ∀ (dflt : AddrSize) (ps : List Prefix) (b : Byte) (rest : List Byte), prefixesAdmitted [] ps = true →
    ((b = 0xF0#8 ∨ b = 0xF2#8 ∨ b = 0xF3#8) →
      decode dflt (ps.map Prefix.toByte ++ b :: rest) = .bad .prefixNotAdmitted) ∧
    (∀ p, b = Prefix.toByte p → (p ∈ ps ∨ (∃ r q, p = .seg r ∧ .seg q ∈ ps)) →
      decode dflt (ps.map Prefix.toByte ++ b :: rest) = .bad .prefixNotAdmitted)

/-- 30_encoding.md R63, R64 (the spec's inference): after admitted prefixes, a byte that is no prefix and not 0F, or 0F
followed by a byte other than 74, 75, 76, is no encoding of this spec. -/
def Obligations.OtherOpcodesAreNotInScope : Prop :=
  ∀ (dflt : AddrSize) (ps : List Prefix) (b : Byte) (rest : List Byte), prefixesAdmitted [] ps = true →
    ((∀ p, b ≠ Prefix.toByte p) → b ≠ 0xF0#8 → b ≠ 0xF2#8 → b ≠ 0xF3#8 → b ≠ 0x0F#8 →
      decode dflt (ps.map Prefix.toByte ++ b :: rest) = .bad .notInScope) ∧
    (b ≠ 0x74#8 → b ≠ 0x75#8 → b ≠ 0x76#8 →
      decode dflt (ps.map Prefix.toByte ++ 0x0F#8 :: b :: rest) = .bad .notInScope)

/-- 30_encoding.md R64 (the spec's inference from R53 to R60), R50 (`0x74 + k`, the spec's inference from the six rows), R53,
R54 ("from general knowledge, not in source"; log 19): every value of ModRM is meaningful for all six rows: with enough bytes
after it every ModRM byte decodes, to the lane width 8 * 2^k of the opcode byte 0x74 + k, to the operand size the prefix 0x66
selects, and to the destination of its `reg` field. -/
def Obligations.EveryModRMDecodesForEveryRow : Prop :=
  ∀ (dflt : AddrSize) (ps : List Prefix) (k : Fin 3) (mod : Fin 4) (reg rm : RegNum) (tail : List Byte),
    prefixesAdmitted [] ps = true → 5 ≤ tail.length →
    ∃ i rest, decode dflt (ps.map Prefix.toByte ++ 0x0F#8 :: BitVec.ofNat 8 (0x74 + k.val)
        :: BitVec.ofNat 8 (mod.val * 64 + reg.val * 8 + rm.val) :: tail) = .ok i rest ∧
      i.lane.bits = 8 * 2 ^ k.val ∧ i.wide = decide (.opSize ∈ ps) ∧ i.prefixes = ps ∧ i.dst = reg ∧
      (mod = 3 → i.src = .reg rm) ∧ (mod ≠ 3 → ∃ m, i.src = .mem m)

/-- 95_test_vectors.md 2.3, 30_encoding.md R50, R65: encodings of the spec, written out byte by byte, decode to what they are.
-/
def Obligations.WrittenOutEncodingsDecode : Prop :=
  decode .a32 [0x0F#8, 0x74#8, 0xC1#8] = .ok (.pcmpeqbMm [] 0 (.reg 1)) [] ∧
  decode .a32 [0x0F#8, 0x75#8, 0xC8#8] = .ok (.pcmpeqwMm [] 1 (.reg 0)) [] ∧
  decode .a32 [0x0F#8, 0x76#8, 0xFF#8] = .ok (.pcmpeqdMm [] 7 (.reg 7)) [] ∧
  decode .a32 [0x66#8, 0x0F#8, 0x74#8, 0xC1#8] = .ok (.pcmpeqbXmm [.opSize] 0 (.reg 1)) [] ∧
  decode .a32 [0x66#8, 0x0F#8, 0x75#8, 0x0B#8] = .ok (.pcmpeqwXmm [.opSize] 1 (.mem (.base32 3 .none))) [] ∧
  decode .a32 [0x66#8, 0x0F#8, 0x76#8, 0x54#8, 0x8B#8, 0xF0#8]
    = .ok (.pcmpeqdXmm [.opSize] 2 (.mem (.sib 2 (some 1) 3 (.d8 0xF0#8)))) [] ∧
  decode .a16 [0x0F#8, 0x76#8, 0x06#8, 0xF9#8, 0xFF#8] = .ok (.pcmpeqdMm [] 0 (.mem (.abs16 0xFFF9#16))) []

/-! ### Addresses and segments -/

/-- 30_encoding.md R58, R59 ("from general knowledge, not in source"; log 19): the effective address that 32-bit addressing
gives the bytes after ModRM, row by row, and when a SIB byte is there. -/
def Obligations.EffectiveAddress32FollowsTheTables : Prop :=
  (∀ (size : AddrSize) (mod : Fin 4) (rm : RegNum) (bs rest : List Byte) (m : MemOperand), mod ≠ 3 →
    takeMem size mod rm bs = .ok m rest → (m.sibBytes = 1 ↔ size = .a32 ∧ rm = 4)) ∧
  (∀ (s : State) (mod : Fin 4) (rm : RegNum) (b0 b1 b2 b3 : Byte) (rest : List Byte), mod ≠ 3 → rm ≠ 4 →
    ∃ m r, takeMem32 mod rm (b0 :: b1 :: b2 :: b3 :: rest) = .ok m r ∧
      effectiveAddress s m =
        (if mod = 0 ∧ rm = 5 then 0#32 else s.gpr32 rm)
          + (if mod = 2 ∨ mod = 0 ∧ rm = 5 then b3 ++ b2 ++ b1 ++ b0
              else if mod = 1 then b0.signExtend 32 else 0#32) ∧
      r = (if mod = 2 ∨ mod = 0 ∧ rm = 5 then rest else if mod = 1 then b1 :: b2 :: b3 :: rest
            else b0 :: b1 :: b2 :: b3 :: rest)) ∧
  (∀ (s : State) (mod : Fin 4) (scale : Fin 4) (index base : RegNum) (b0 b1 b2 b3 : Byte) (rest : List Byte), mod ≠ 3 →
    ∃ m r, takeMem32 mod 4
        (BitVec.ofNat 8 (scale.val * 64 + index.val * 8 + base.val) :: b0 :: b1 :: b2 :: b3 :: rest) = .ok m r ∧
      effectiveAddress s m =
        (if base = 5 ∧ mod = 0 then 0#32 else s.gpr32 base)
          + (if index = 4 then 0#32 else s.gpr32 index * BitVec.ofNat 32 (2 ^ scale.val))
          + (if mod = 2 ∨ mod = 0 ∧ base = 5 then b3 ++ b2 ++ b1 ++ b0
              else if mod = 1 then b0.signExtend 32 else 0#32) ∧
      r = (if mod = 2 ∨ mod = 0 ∧ base = 5 then rest else if mod = 1 then b1 :: b2 :: b3 :: rest
            else b0 :: b1 :: b2 :: b3 :: rest))

/-- 30_encoding.md R60 ("from general knowledge, not in source"; log 19): the effective address that 16-bit addressing gives
the bytes after ModRM, row by row: the sum modulo 2^16, zero-extended, and never a SIB byte. -/
def Obligations.EffectiveAddress16FollowsTheTables : Prop :=
  ∀ (s : State) (mod : Fin 4) (rm : RegNum) (b0 b1 : Byte) (rest : List Byte), mod ≠ 3 →
    let bx := (s.gpr32 3).extractLsb' 0 16
    let bp := (s.gpr32 5).extractLsb' 0 16
    let si := (s.gpr32 6).extractLsb' 0 16
    let di := (s.gpr32 7).extractLsb' 0 16
    let registers : Word16 := match rm with
      | 0 => bx + si | 1 => bx + di | 2 => bp + si | 3 => bp + di | 4 => si | 5 => di
      | 6 => (if mod = 0 then 0#16 else bp) | 7 => bx
    let long := mod = 2 ∨ mod = 0 ∧ rm = 6
    ∃ m r, takeMem16 mod rm (b0 :: b1 :: rest) = .ok m r ∧ m.sibBytes = 0 ∧
      effectiveAddress s m =
        (registers + (if long then b1 ++ b0 else if mod = 1 then b0.signExtend 16 else 0#16)).setWidth 32 ∧
      r = (if long then rest else if mod = 1 then b1 :: rest else b0 :: b1 :: rest)

/-- 30_encoding.md R61 ("from general knowledge, not in source"; log 19): the segment of a memory operand is the one its
segment prefix names; without one it is SS when the base is EBP, ESP or BP, by the rows of the rule over the encoded fields,
and DS otherwise. -/
def Obligations.OperandSegmentFollowsTheRule : Prop :=
  ∀ (size : AddrSize) (mod : Fin 4) (rm : RegNum) (bs rest : List Byte) (m : MemOperand) (ps : List Prefix), mod ≠ 3 →
    takeMem size mod rm bs = .ok m rest → prefixesAdmitted [] ps = true →
    (∀ r, .seg r ∈ ps → operandSegment ps m = r) ∧
    ((∀ r, .seg r ∉ ps) →
      operandSegment ps m =
        if (size = .a32 ∧ rm ≠ 4 ∧ rm = 5 ∧ (mod = 1 ∨ mod = 2)) ∨
            (size = .a32 ∧ rm = 4 ∧ ((Fields.ofByte (bs.headD 0#8)).low = 4 ∨
              (Fields.ofByte (bs.headD 0#8)).low = 5 ∧ (mod = 1 ∨ mod = 2))) ∨
            (size = .a16 ∧ (rm = 2 ∨ rm = 3 ∨ rm = 6 ∧ (mod = 1 ∨ mod = 2)))
        then .ss else .ds)

/-- 30_encoding.md R56 ("from general knowledge, not in source", decision D21; logs 17, 19): the address size of a decoded
memory operand. -/
def Obligations.AddressSizeFollowsModeAndPrefix : Prop :=
  ∀ (s : State) (bs rest : List Byte) (i : Instr) (m : MemOperand),
    decode s.defaultAddrSize bs = .ok i rest → i.src = .mem m →
    (s.mode ≠ .protectedMode → m.size = if .addrSize ∈ i.prefixes then .a32 else .a16) ∧
    (s.mode = .protectedMode → .addrSize ∉ i.prefixes → m.size = s.plat.codeAddrSize) ∧
    (s.mode = .protectedMode → .addrSize ∈ i.prefixes → m.size ≠ s.plat.codeAddrSize)

/-! ### Steps -/

/-- 20_memory.md R48, 30_encoding.md R63, 40_pcmpeq.md R70: when the bytes fetched from CS at EIP decode to an instruction, a
step is that instruction's execution. -/
def Obligations.StepRunsTheDecodedInstruction : Prop :=
  ∀ (s : State) (bs rest : List Byte) (i : Instr),
    (∀ k (h : k < bs.length), fetchByte s k = .next bs[k]) → decode s.defaultAddrSize bs = .ok i rest →
    step s = exec i s

/-- 20_memory.md R48, 10_state.md R14: an instruction whose next byte cannot be fetched is refused: FetchWrap past the top of
the offset space, FetchFault outside the CS limit or on a page fault. That FetchWrap is looked for first is the model's choice,
log 13. -/
def Obligations.UnfetchableInstructionIsRefused : Prop :=
  ∀ (s : State) (bs : List Byte),
    (∀ k (h : k < bs.length), fetchByte s k = .next bs[k]) → decode s.defaultAddrSize bs = .bad .truncated →
    (s.offsetTop < s.eip.toNat + bs.length → step s = .refused .fetchWrap) ∧
    (s.eip.toNat + bs.length ≤ s.offsetTop →
      ((s.segment .cs).holds (s.eip.toNat + bs.length) = false ∨
        ∃ code, s.translate (s.segBase .cs + s.eip + BitVec.ofNat 32 bs.length) .fetch = .pageFault code) →
      step s = .refused .fetchFault)

/-- 30_encoding.md R63 (the spec's inference), R52 (decision D12): bytes at EIP that the decoder refuses by name are refused by
the step under that name, whether or not the bytes after them can be fetched. That the decoder's refusal comes before that of a
later byte is the model's choice, log 13. -/
def Obligations.UndecodableBytesAreRefused : Prop :=
  ∀ (s : State) (bs : List Byte), (∀ k (h : k < bs.length), fetchByte s k = .next bs[k]) →
    (decode s.defaultAddrSize bs = .bad .prefixNotAdmitted → step s = .refused .prefixNotAdmitted) ∧
    (decode s.defaultAddrSize bs = .bad .notInScope → step s = .refused .notInScope)

/-- The model's own, logs 6 and 7: a table word placed after reset is what the next step runs. -/
def Obligations.PlacedTableWordRunsAfterReset : Prop :=
  ∀ (nbits w : Nat) (i : Instr), nbits ≤ 88 → decodeTableWord nbits w = some i →
    step (State.reset.withFetchWord nbits w) = exec i (State.reset.withFetchWord nbits w)

/-! ### The lane function -/

/-- 40_pcmpeq.md R71: every lane of the result is all 1s when the two lanes are equal and all 0s otherwise, and the result has
as many lanes as the operand size holds. -/
def Obligations.ComparesLaneByLane : Prop :=
  (∀ (w : LaneWidth) (d s : Word64) (i : Nat), i < 64 / w.bits →
    laneAt w.bits i (pcmpeq w d s) =
      if laneAt w.bits i d = laneAt w.bits i s then BitVec.allOnes w.bits else 0#w.bits) ∧
  (∀ (w : LaneWidth) (d s : Word128) (i : Nat), i < 128 / w.bits →
    laneAt w.bits i (pcmpeq w d s) =
      if laneAt w.bits i d = laneAt w.bits i s then BitVec.allOnes w.bits else 0#w.bits) ∧
  (∀ (w : LaneWidth) (d s d' s' : Word128) (i : Nat), i < 128 / w.bits →
    laneAt w.bits i d = laneAt w.bits i d' → laneAt w.bits i s = laneAt w.bits i s' →
    laneAt w.bits i (pcmpeq w d s) = laneAt w.bits i (pcmpeq w d' s')) ∧
  (64 / LaneWidth.byte.bits = 8 ∧ 64 / LaneWidth.word.bits = 4 ∧ 64 / LaneWidth.dword.bits = 2 ∧
    128 / LaneWidth.byte.bits = 16 ∧ 128 / LaneWidth.word.bits = 8 ∧ 128 / LaneWidth.dword.bits = 4) ∧
  (BitVec.allOnes 8 = 0xFF#8 ∧ BitVec.allOnes 16 = 0xFFFF#16 ∧ BitVec.allOnes 32 = 0xFFFFFFFF#32)

/-- 40_pcmpeq.md R82 (the spec's inferences from R71): (a) to (d) at both operand sizes, (e) the 128-bit comparison is two
64-bit comparisons side by side, (f) for no lane width is the comparison idempotent. -/
def Obligations.LaneFunctionLaws : Prop :=
  (∀ (N : Nat), N = 64 ∨ N = 128 → ∀ (w : LaneWidth) (d s : BitVec N),
    (∀ i < N / w.bits, laneAt w.bits i (pcmpeq w d s) = BitVec.allOnes w.bits ∨
      laneAt w.bits i (pcmpeq w d s) = 0#w.bits) ∧
    pcmpeq w d s = pcmpeq w s d ∧
    pcmpeq w d d = BitVec.allOnes N ∧
    (pcmpeq w d s = 0#N ↔ ∀ i < N / w.bits, laneAt w.bits i d ≠ laneAt w.bits i s) ∧
    (pcmpeq w d s = BitVec.allOnes N ↔ d = s)) ∧
  (∀ (w : LaneWidth) (d s : Word128),
    (pcmpeq w d s).extractLsb' 0 64 = pcmpeq w (d.extractLsb' 0 64) (s.extractLsb' 0 64) ∧
    (pcmpeq w d s).extractLsb' 64 64 = pcmpeq w (d.extractLsb' 64 64) (s.extractLsb' 64 64)) ∧
  (∀ w : LaneWidth, ∃ d s : Word64, pcmpeq w (pcmpeq w d s) s ≠ pcmpeq w d s)

/-- 40_pcmpeq.md R83 (the spec's inference from R71): a lane of twice the width is equal exactly when both of its halves are,
so it is all 1s exactly when both half lanes of the narrower comparison are, and 0 otherwise. -/
def Obligations.WiderLaneNeedsBothHalves : Prop :=
  ∀ (N : Nat), N = 64 ∨ N = 128 → ∀ (d s : BitVec N),
    (∀ j < N / 16, laneAt 16 j (pcmpeq .word d s) =
      if laneAt 8 (2 * j) (pcmpeq .byte d s) = 0xFF#8 ∧ laneAt 8 (2 * j + 1) (pcmpeq .byte d s) = 0xFF#8
      then 0xFFFF#16 else 0#16) ∧
    (∀ j < N / 32, laneAt 32 j (pcmpeq .dword d s) =
      if laneAt 16 (2 * j) (pcmpeq .word d s) = 0xFFFF#16 ∧ laneAt 16 (2 * j + 1) (pcmpeq .word d s) = 0xFFFF#16
      then 0xFFFFFFFF#32 else 0#32)

/-! ### Results -/

/-- 40_pcmpeq.md R70, R72, R73, R75, R77: pcmpeqbMm, pcmpeqwMm and pcmpeqdMm (and the `xmm` rows without SSE2, R79), with a
register or a memory source, complete under the conditions of 70_reset_and_hazards.md R111 with the result of the lane
function. -/
def Obligations.SixtyFourBitFormsComplete : Prop :=
  ∀ (i : Instr) (s : State), wideOp s i = false → ControlReady s i → SourceReadable s i → RoomAhead s i →
    exec i s = .next ((s.writeMM i.dst (pcmpeq i.lane (s.readMM i.dst)
      (match i.src with
        | .reg r => s.readMM r
        | .mem m => operandValue s (operandSegment i.prefixes m) (effectiveAddress s m) 8))).setEip
      (s.eip + BitVec.ofNat 32 i.length))

/-- 40_pcmpeq.md R70, R72, R74, R76, R78: pcmpeqbXmm, pcmpeqwXmm and pcmpeqdXmm on a processor with SSE2, with a register or a
memory source, complete under the conditions of R111 with the result of the lane function. -/
def Obligations.OneHundredTwentyEightBitFormsComplete : Prop :=
  ∀ (i : Instr) (s : State), wideOp s i = true → ControlReady s i → SourceReadable s i → RoomAhead s i →
    exec i s = .next ((s.writeXMM i.dst (pcmpeq i.lane (s.readXMM i.dst)
      (match i.src with
        | .reg r => s.readXMM r
        | .mem m => operandValue s (operandSegment i.prefixes m) (effectiveAddress s m) 16))).setEip
      (s.eip + BitVec.ofNat 32 i.length))

/-- An instruction completes exactly when its conditions hold: those of 70_reset_and_hazards.md R111 (the spec's inference),
and beside them MMX technology (decision D18; log 14), a usable segment (D20), a segment base that is a multiple of 16 under a
128-bit operand (D10), an aligned 64-bit operand where alignment checking is on (D11; log 22), and room ahead of EIP
(10_state.md R14, D5; log 12). -/
def Obligations.CompletesExactlyWhenReady : Prop :=
  ∀ (i : Instr) (s : State),
    (∃ t, exec i s = .next t) ↔ ControlReady s i ∧ SourceReadable s i ∧ RoomAhead s i

/-- 40_pcmpeq.md R81 (the spec's inference from R70 and R71): the same register as source and destination becomes all 1s,
whatever it held. -/
def Obligations.SameRegisterBecomesAllOnes : Prop :=
  ∀ (i : Instr) (s : State), i.src = .reg i.dst → ControlReady s i → RoomAhead s i →
    (wideOp s i = false → ∃ t, exec i s = .next t ∧ t.readMM i.dst = 0xFFFFFFFFFFFFFFFF#64) ∧
    (wideOp s i = true → ∃ t, exec i s = .next t ∧ t.readXMM i.dst = BitVec.ofNat 128 (2 ^ 128 - 1))

/-- 40_pcmpeq.md R79, with what the spec infers there from the source's sentence: on a processor with MMX technology and
without SSE2 the `xmm` rows are 64-bit operations on the `mm` registers. -/
def Obligations.WithoutSSE2TheWideRowsUseMM : Prop :=
  ∀ (i : Instr) (s : State) (dflt : AddrSize), i.wide = true → i.wf dflt = true →
    (s.plat.hasSSE2 = true → wideOp s i = true) ∧
    (s.plat.hasMMX = true → s.plat.hasSSE2 = false → s.cr0EM = false → s.cr0TS = false →
      (s.x87Pending = true → exec i s = .fault .mf) ∧
      (s.x87Pending = false → RoomAhead s i →
        (∀ r, i.src = .reg r →
          exec i s = .next ((s.writeMM i.dst (pcmpeq i.lane (s.readMM i.dst) (s.readMM r))).setEip
            (s.eip + BitVec.ofNat 32 i.length))) ∧
        (∀ m, i.src = .mem m → OperandReadable s (operandSegment i.prefixes m) (effectiveAddress s m) 8 →
          exec i s = .next ((s.writeMM i.dst (pcmpeq i.lane (s.readMM i.dst)
            (operandValue s (operandSegment i.prefixes m) (effectiveAddress s m) 8))).setEip
            (s.eip + BitVec.ofNat 32 i.length)))) ∧
      i.length = instrLength (i.prefixes.filter (· ≠ .opSize)) i.src + 1)

/-- 10_state.md R14 (decision D5): a completed instruction moves EIP past itself, by 3 to 11 bytes, and nothing carries it over
the top of the offset space; where the sum would pass the top the instruction, otherwise ready, is refused. -/
def Obligations.EipAdvancesByTheLength : Prop :=
  ∀ (i : Instr) (s : State) (dflt : AddrSize), i.wf dflt = true →
    3 ≤ i.length ∧ i.length ≤ 11 ∧
    (∀ t, exec i s = .next t → t.eip = s.eip + BitVec.ofNat 32 i.length ∧ t.eip.toNat = s.eip.toNat + i.length) ∧
    (ControlReady s i → SourceReadable s i →
      (s.mode = .protectedMode ∧ 0xFFFFFFFF < s.eip.toNat + i.length ∨
        s.mode ≠ .protectedMode ∧ 0xFFFF < s.eip.toNat + i.length) →
      exec i s = .refused .fetchWrap)

/-- 10_state.md R23 (the spec's inference), R20, R21: the frame of a completed instruction of all six rows: it writes its
destination register, an `mm` register in a 64-bit operation and an `xmm` register in a 128-bit operation, and EIP, and nothing
else; every byte of memory reads as before, since no form stores. -/
def Obligations.CompletedInstructionFrame : Prop :=
  ∀ (i : Instr) (s t : State), exec i s = .next t →
    (∀ r, wideOp s i = true ∨ r ≠ i.dst → t.readMM r = s.readMM r) ∧
    (∀ r, wideOp s i = false ∨ r ≠ i.dst → t.readXMM r = s.readXMM r) ∧
    (∀ r, t.gpr32 r = s.gpr32 r) ∧ (∀ r, t.segment r = s.segment r) ∧
    t.cr0EM = s.cr0EM ∧ t.cr0TS = s.cr0TS ∧ t.cr4OSFXSR = s.cr4OSFXSR ∧ t.x87Pending = s.x87Pending ∧
    t.mode = s.mode ∧ (∀ a, t.mem.read a = s.mem.read a) ∧ t.plat = s.plat ∧ t.draw = s.draw

/-- 10_state.md R10, R11, R18: a 64-bit operation neither reads nor writes an `xmm` register or CR4.OSFXSR: with other values
there it does the same, and leaves them. -/
def Obligations.SixtyFourBitFormsIgnoreXMMState : Prop :=
  ∀ (i : Instr) (s t : State) (x : Vector Word128 8) (b : Bool), wideOp s i = false → exec i s = .next t →
    exec i { s with xmm := x, cr4OSFXSR := b } = .next { t with xmm := x, cr4OSFXSR := b }

/-- 10_state.md R10, R11, R19: a 128-bit operation neither reads nor writes an `mm` register or X87Pending. -/
def Obligations.OneHundredTwentyEightBitFormsIgnoreMMState : Prop :=
  ∀ (i : Instr) (s t : State) (x : Vector Word64 8) (b : Bool), wideOp s i = true → exec i s = .next t →
    exec i { s with mm := x, x87Pending := b } = .next { t with mm := x, x87Pending := b }

/-! ### Memory operands -/

/-- 20_memory.md R35, R36 ("from general knowledge, not in source"; log 19): the linear address of byte k is (SegBase + ea + k)
mod 2^32, where SegBase is 16 times the selector in Real and V86 mode and the platform's base in Protected mode; so in Real and
V86 mode it is a multiple of 16 below 2^20, and no form is refused there for its segment's base. -/
def Obligations.LinearAddressFollowsTheSegmentBase : Prop :=
  ∀ (s : State) (seg : SegReg) (ea : Word32) (k : Nat),
    (s.mode = .protectedMode →
      (s.linear seg ea k).toNat = ((s.segment seg).base.toNat + ea.toNat + k) % 2 ^ 32) ∧
    (s.mode ≠ .protectedMode →
      (s.linear seg ea k).toNat = (16 * (s.segment seg).selector.toNat + ea.toNat + k) % 2 ^ 32 ∧
      (s.segBase seg).toNat % 16 = 0 ∧ (s.segBase seg).toNat < 2 ^ 20 ∧
      ∀ i, exec i s ≠ .refused .unalignedSegmentBase)

/-- 00_scope.md R5, 20_memory.md R33, R37 (decisions D1, D9, D11): the default platform: MMX technology and SSE2, flat segments
(base 0 in every mode, the offsets up to 0xFFFFFFFF inside the limit, all usable), identity translation, no alignment check. On
it no form raises #PF, and none is refused for the processor, its segment or its alignment. -/
def Obligations.DefaultPlatformIsFlat : Prop :=
  ∀ (r : State) (size : AddrSize) (s : State), s = r.onDefaultPlatform size →
    s.plat.hasMMX = true ∧ s.plat.hasSSE2 = true ∧ s.plat.alignmentCheckEnabled = false ∧
    (∀ seg, s.segBase seg = 0#32 ∧ (s.segment seg).usable = true) ∧
    (∀ seg ea n, 0 < n → (s.segLimitOK seg ea n = true ↔ ea + n - 1 ≤ 0xFFFFFFFF)) ∧
    (∀ lin access, s.translate lin access = .phys lin.toNat) ∧
    (∀ i code, exec i s ≠ .fault (.pf code)) ∧
    (∀ i q, exec i s = .refused q → q = .fetchWrap)

/-- 20_memory.md R30 ("from general knowledge, not in source", decision D4; log 19): `MemRead` is little-endian: bits 8k+7 to
8k are the byte at `addr + k`, and lane j of the word and the doubleword views is byte lanes 2j, 2j+1 and 4j to 4j+3, the lower
address the less significant. -/
def Obligations.MemReadIsLittleEndian : Prop :=
  ∀ (s : State) (addr n : Nat),
    (∀ k < n, laneAt 8 k (s.memRead addr n) = s.mem.read (addr + k)) ∧
    (∀ j, 2 * j + 1 < n →
      laneAt 16 j (s.memRead addr n) = s.mem.read (addr + (2 * j + 1)) ++ s.mem.read (addr + 2 * j)) ∧
    (∀ j, 4 * j + 3 < n →
      laneAt 32 j (s.memRead addr n) = s.mem.read (addr + (4 * j + 3)) ++ s.mem.read (addr + (4 * j + 2))
        ++ s.mem.read (addr + (4 * j + 1)) ++ s.mem.read (addr + 4 * j))

/-- 20_memory.md R35, R37, R38: byte k of a checked operand read is the byte at the translation of the linear address (SegBase
+ ea + k) mod 2^32; in Real mode, where translation is the identity, the operand is MemRead at its linear address. -/
def Obligations.OperandReadGivesTheTranslatedBytes : Prop :=
  ∀ (s : State) (seg : SegReg) (ea : Word32) (n : Nat) (v : BitVec (8 * n)), readOperand s seg ea n = .next v →
    (∀ k < n, ∃ p,
      s.translate (BitVec.ofNat 32 ((s.segBase seg).toNat + ea.toNat + k)) .dataRead = .phys p ∧
      laneAt 8 k v = s.mem.read p) ∧
    (s.mode = .realMode → v = s.memRead (s.segBase seg + ea).toNat n)

/-- 20_memory.md R36 (which address is tested: decision D10): a 128-bit memory operand that is not aligned on a 16-byte
boundary is never read, in any mode and any segment: #GP(0), or by R40 possibly #SS(0); a segment whose base is no multiple of
16 is refused, and otherwise the test is one of `ea`. -/
def Obligations.MisalignedWideOperandFaults : Prop :=
  ∀ (i : Instr) (s : State) (m : MemOperand), i.src = .mem m → wideOp s i = true → ControlReady s i →
    let seg := operandSegment i.prefixes m
    let ea := effectiveAddress s m
    (s.segment seg).usable = true →
    ((s.segBase seg).toNat % 16 ≠ 0 → exec i s = .refused .unalignedSegmentBase) ∧
    ((s.segBase seg).toNat % 16 = 0 →
      ((s.segBase seg + ea).toNat % 16 = 0 ↔ ea.toNat % 16 = 0) ∧
      ((s.segBase seg + ea).toNat % 16 ≠ 0 →
        exec i s = .fault .gp ∨
          s.mode = .protectedMode ∧ seg = .ss ∧ ¬ InsideLimit s seg ea.toNat 16 ∧ exec i s = .fault .ss))

/-- 20_memory.md R39 (decision D11; log 22): a 64-bit memory operand is read at any byte address; only with
AlignmentCheckEnabled is a misaligned one refused. -/
def Obligations.NarrowOperandNeedsNoAlignment : Prop :=
  ∀ (i : Instr) (s : State) (m : MemOperand), i.src = .mem m → wideOp s i = false → ControlReady s i → RoomAhead s i →
    let seg := operandSegment i.prefixes m
    let ea := effectiveAddress s m
    (s.segment seg).usable = true →
    (s.plat.alignmentCheckEnabled = true → ea.toNat % 8 ≠ 0 → exec i s = .refused .alignmentCheck) ∧
    (s.plat.alignmentCheckEnabled = false → InsideLimit s seg ea.toNat 8 →
      (∀ k < 8, ∃ p, s.translate (s.linear seg ea k) .dataRead = .phys p) →
      ∃ t, exec i s = .next t ∧ t.readMM i.dst = pcmpeq i.lane (s.readMM i.dst) (operandValue s seg ea 8))

/-- 20_memory.md R33 (decision D20), 92_eei_decisions.md D18: a memory operand in a segment that may not be read through is
refused, and so is every form on a processor without MMX technology. -/
def Obligations.UnusableSegmentAndMissingMMXAreRefused : Prop :=
  (∀ (i : Instr) (s : State) (m : MemOperand), i.src = .mem m → ControlReady s i →
    (s.segment (operandSegment i.prefixes m)).usable = false → exec i s = .refused .unusableSegment) ∧
  (∀ (i : Instr) (s : State), s.plat.hasMMX = false → exec i s = .refused .noMMX)

/-! ### Exceptions -/

/-- 60_exceptions.md R94 (decision D6): when, and only when, a form raises #UD. -/
def Obligations.UndefinedOpcodeExactly : Prop :=
  ∀ (i : Instr) (s : State), s.plat.hasMMX = true →
    (exec i s = .fault .ud ↔
      s.cr0EM = true ∨ i.wide = true ∧ s.plat.hasSSE2 = true ∧ s.cr4OSFXSR = false)

/-- 60_exceptions.md R96: when, and only when, a form raises #NM. -/
def Obligations.DeviceNotAvailableExactly : Prop :=
  ∀ (i : Instr) (s : State), s.plat.hasMMX = true →
    (exec i s = .fault .nm ↔
      s.cr0TS = true ∧ ¬ (s.cr0EM = true ∨ i.wide = true ∧ s.plat.hasSSE2 = true ∧ s.cr4OSFXSR = false))

/-- 60_exceptions.md R95 (decision D26), with the order of R98 (decision D7): when, and only when, a form raises #MF, in all
three modes; a 128-bit operation never does. -/
def Obligations.PendingX87ErrorExactly : Prop :=
  ∀ (i : Instr) (s : State), s.plat.hasMMX = true →
    (exec i s = .fault .mf ↔
      (i.wide = false ∨ s.plat.hasSSE2 = false) ∧ s.x87Pending = true ∧ s.cr0EM = false ∧ s.cr0TS = false)

/-- 60_exceptions.md R91, with the refusals that 20_memory.md R38 puts first (decisions D10, D11, D20), R40 (D24) and the order
of R98 (D7): a form raises #GP(0), error code 0, only with a memory source in one of the three cases of the rule, and in each
of them it does, unless a refusal of R38 comes first or the operand is outside the SS limit in Protected mode (R92, R40). -/
def Obligations.GeneralProtectionCases : Prop :=
  Fault.errorCode .gp = some 0 ∧
  ∀ (i : Instr) (s : State),
    (∀ r, i.src = .reg r → exec i s ≠ .fault .gp) ∧
    (∀ m, i.src = .mem m →
      let seg := operandSegment i.prefixes m
      let ea := effectiveAddress s m
      let n := operandSize s i
      let cases := (s.mode = .protectedMode ∧ ¬ InsideLimit s seg ea.toNat n ∧ seg ≠ .ss) ∨
        (s.mode ≠ .protectedMode ∧ 0xFFFF < ea.toNat + n - 1) ∨
        (wideOp s i = true ∧ (s.segBase seg + ea).toNat % 16 ≠ 0)
      (exec i s = .fault .gp → cases) ∧
      (ControlReady s i → operandRefusal s seg ea n = none →
        ¬ (s.mode = .protectedMode ∧ seg = .ss ∧ ¬ InsideLimit s seg ea.toNat n) → cases → exec i s = .fault .gp))

/-- 60_exceptions.md R92: #SS(0) is raised only in Protected mode, for an operand outside the limit of SS, and there it is,
unless a refusal of R38 comes first or the operand is also a misaligned 128-bit one (R40); in Real and V86 mode an operand in
SS that leaves 0 to 0xFFFF raises #GP(0). -/
def Obligations.StackFaultCases : Prop :=
  Fault.errorCode .ss = some 0 ∧
  ∀ (i : Instr) (s : State),
    (exec i s = .fault .ss → s.mode = .protectedMode ∧ ∃ m, i.src = .mem m ∧ operandSegment i.prefixes m = .ss ∧
      ¬ InsideLimit s .ss (effectiveAddress s m).toNat (operandSize s i)) ∧
    (∀ m, i.src = .mem m → operandSegment i.prefixes m = .ss → ControlReady s i →
      operandRefusal s .ss (effectiveAddress s m) (operandSize s i) = none →
      (s.mode = .protectedMode → ¬ InsideLimit s .ss (effectiveAddress s m).toNat (operandSize s i) →
        (wideOp s i = true → (s.segBase .ss + effectiveAddress s m).toNat % 16 = 0) → exec i s = .fault .ss) ∧
      (s.mode ≠ .protectedMode → 0xFFFF < (effectiveAddress s m).toNat + operandSize s i - 1 →
        exec i s = .fault .gp))

/-- 60_exceptions.md R93: #PF is raised only in Protected and V86 mode by a memory source, with the code that translation
answers for a byte of the operand; and when a byte page-faults and no earlier check stops the instruction, it is. -/
def Obligations.PageFaultCases : Prop :=
  ∀ (i : Instr) (s : State),
    (∀ code, exec i s = .fault (.pf code) → s.mode ≠ .realMode ∧ ∃ m, i.src = .mem m ∧ ∃ k < operandSize s i,
      s.translate (s.linear (operandSegment i.prefixes m) (effectiveAddress s m) k) .dataRead = .pageFault code) ∧
    (∀ m, i.src = .mem m → ControlReady s i →
      operandRefusal s (operandSegment i.prefixes m) (effectiveAddress s m) (operandSize s i) = none →
      segmentFault s (operandSegment i.prefixes m) (effectiveAddress s m) (operandSize s i) = none →
      (∃ k < operandSize s i, ∃ code,
        s.translate (s.linear (operandSegment i.prefixes m) (effectiveAddress s m) k) .dataRead = .pageFault code) →
      ∃ code, exec i s = .fault (.pf code) ∧ ∃ k < operandSize s i,
        s.translate (s.linear (operandSegment i.prefixes m) (effectiveAddress s m) k) .dataRead = .pageFault code)

/-- 20_memory.md R40 (decision D24; log 10): a 128-bit operand both misaligned and outside the limit raises #GP(0) or #SS(0),
either, in SS in Protected mode, and #GP(0) in every other combination. -/
def Obligations.MisalignedAndOutsideRaisesEither : Prop :=
  ∀ (i : Instr) (s : State) (m : MemOperand), i.src = .mem m → wideOp s i = true → ControlReady s i →
    let seg := operandSegment i.prefixes m
    let ea := effectiveAddress s m
    operandRefusal s seg ea 16 = none → ¬ InsideLimit s seg ea.toNat 16 → (s.segBase seg + ea).toNat % 16 ≠ 0 →
    (s.mode = .protectedMode ∧ seg = .ss → exec i s = .fault .gp ∨ exec i s = .fault .ss) ∧
    (¬ (s.mode = .protectedMode ∧ seg = .ss) → exec i s = .fault .gp)

/-- 60_exceptions.md R97 (the spec's inference): the exceptions that no form of a kind raises in a mode: the cells of the table
that say no, and the cells that say memory-source forms only. -/
def Obligations.ExceptionTableBounds : Prop :=
  ∀ (i : Instr) (s : State) (e : Fault), exec i s = .fault e →
    (wideOp s i = true → e ≠ .mf) ∧
    (s.mode ≠ .protectedMode → e ≠ .ss) ∧
    (s.mode = .realMode → ∀ code, e ≠ .pf code) ∧
    (∀ r, i.src = .reg r → e = .ud ∨ e = .nm ∨ e = .mf) ∧
    (wideOp s i = false → s.cr0EM = false → e ≠ .ud)

/-- 60_exceptions.md R98 (decision D7): #UD, #NM and #MF depend on control state only: a form that raises one raises it with
any other registers, memory, segments, mode and translation, whatever its operands, and so consults none of them. -/
def Obligations.ControlExceptionsComeFirst : Prop :=
  ∀ (i j : Instr) (s t : State) (e : Fault), e = .ud ∨ e = .nm ∨ e = .mf → i.wide = j.wide →
    s.plat.hasMMX = t.plat.hasMMX → s.plat.hasSSE2 = t.plat.hasSSE2 → s.cr0EM = t.cr0EM → s.cr0TS = t.cr0TS →
    s.cr4OSFXSR = t.cr4OSFXSR → s.x87Pending = t.x87Pending →
    exec i s = .fault e → exec j t = .fault e

/-! ### Invariants, runs and reset -/

/-- 10_state.md R14, R23, 20_memory.md R41: every step keeps the invariant: canonical memory, and in Real and V86 mode EIP
inside 0 to 0xFFFF. -/
def Obligations.StepKeepsTheInvariant : Prop :=
  ∀ s t : State, Invariant s → step s = .next t → Invariant t

/-- The state after reset has the invariant. Rests on the model's choices of logs 4 and 5. -/
def Obligations.ResetHasTheInvariant : Prop := Invariant State.reset

/-- 70_reset_and_hazards.md R112 (the spec's inference): no in-scope instruction falsifies a launch premise, so in a run of any
length from a state that meets the premises no step raises #UD, #NM or #MF, and each premise holds in every state it reaches.
-/
def Obligations.LaunchPremisesLastForEveryRun : Prop :=
  ∀ (k : Nat) (s : State),
    (∀ t, run k s = .next t →
      (NoUD64 s → NoUD64 t) ∧ (NoUD128 s → NoUD128 t) ∧ (NoNM s → NoNM t) ∧ (NoMF s → NoMF t)) ∧
    (NoUD128 s → run k s ≠ .fault Fault.ud) ∧
    (NoNM s → run k s ≠ .fault Fault.nm) ∧
    (NoMF s → run k s ≠ .fault Fault.mf)

/-- 70_reset_and_hazards.md R113, 10_state.md R21, R23: in a run of any length the mode, the segments, the general registers,
the control state and every byte of memory stay as they were at its start. -/
def Obligations.RunsLeaveTheEnvironmentAlone : Prop :=
  ∀ (k : Nat) (s t : State), run k s = .next t →
    t.mode = s.mode ∧ (∀ r, t.segment r = s.segment r) ∧ (∀ r, t.gpr32 r = s.gpr32 r) ∧
    t.cr0EM = s.cr0EM ∧ t.cr0TS = s.cr0TS ∧ t.cr4OSFXSR = s.cr4OSFXSR ∧ t.x87Pending = s.x87Pending ∧
    (∀ a, t.mem.read a = s.mem.read a) ∧ t.plat = s.plat ∧ s.eip.toNat + 3 * k ≤ t.eip.toNat ∧
    t.eip.toNat ≤ s.eip.toNat + 11 * k

/-- 70_reset_and_hazards.md R114 (decision D27), R113, 20_memory.md R48, R41: a program laid end to end in memory from EIP runs
as its instructions executed one after the other, and where none stops it has ended normally after as many steps as it has
instructions: EIP is at the first byte after the last. -/
def Obligations.PlacedProgramRunsInOrderToItsEnd : Prop :=
  ∀ (p : Program) (s : State), (∀ i ∈ p, i.wf s.defaultAddrSize = true) → PlacedAtEip s p →
    run p.length s = execAll p s ∧ ∀ t, run p.length s = .next t → EndedNormally s.eip p t

/-- 60_exceptions.md R99 (decision D8), R100 (log 9), 20_memory.md R48: a step raises an exception exactly when a well-formed
instruction stands at EIP, every byte fetchable, and raises it (the fetch raises none), and completes exactly when such an
instruction completes. So a run that faults got, without one, to a state whose instruction at EIP raises that exception, and no
number of further steps continues it; nor does one continue a run that was refused. -/
def Obligations.StepFaultsExactlyWhenItsInstructionDoes : Prop :=
  (∀ (s : State) (e : Fault),
    step s = .fault e ↔ ∃ i : Instr, i.wf s.defaultAddrSize = true ∧ PlacedAtEip s [i] ∧ exec i s = .fault e) ∧
  (∀ s t : State,
    step s = .next t ↔ ∃ i : Instr, i.wf s.defaultAddrSize = true ∧ PlacedAtEip s [i] ∧ exec i s = .next t) ∧
  (∀ (k : Nat) (s : State) (e : Fault), run k s = .fault e →
    (∃ m, m < k ∧ ∃ t i, run m s = .next t ∧ i.wf t.defaultAddrSize = true ∧ PlacedAtEip t [i] ∧ exec i t = .fault e) ∧
    ∀ j, run (k + j) s = .fault e) ∧
  (∀ (k : Nat) (s : State) (q : Refusal), run k s = .refused q →
    (∃ m, m < k ∧ ∃ t, run m s = .next t ∧ step t = .refused q) ∧ ∀ j, run (k + j) s = .refused q)

/-- The model's choice, PRESUMED log 4 (and logs 5, 22, 23), from the table of 10_state.md R25: the registers after reset. The
first instruction byte is fetched where R35 puts CS:EIP in Real mode, at 16 times the selector plus EIP, and not at the reset
vector 0xFFFFFFF0 that R25 mentions (log 4). -/
def Obligations.ResetValuesOfTheFamily : Prop :=
  (∀ r, State.reset.readMM r = 0#64) ∧ (∀ r, State.reset.readXMM r = 0#128) ∧
  (∀ r, r ≠ 2 → State.reset.gpr32 r = 0#32) ∧ State.reset.eip = 0xFFF0#32 ∧
  (State.reset.segment .cs).selector = 0xF000#16 ∧ (State.reset.segment .cs).base = 0xFFFF0000#32 ∧
  (∀ r, r ≠ .cs → (State.reset.segment r).selector = 0#16 ∧ (State.reset.segment r).base = 0#32) ∧
  State.reset.linear .cs State.reset.eip 0 = 0x000FFFF0#32 ∧
  State.reset.cr0EM = false ∧ State.reset.cr0TS = false ∧ State.reset.cr4OSFXSR = false ∧
  State.reset.x87Pending = false ∧ State.reset.mode = .realMode
end

