-- ==== Sys2Proof/Laws/Decode.lean ====
section
/-! SUPPORT. The small lemmas of the decoder and the encoder: fields of bytes, little-endian numbers, displacements, prefixes
and opcodes are read back as they were written; what was read stays read when more bytes follow. -/

namespace Sys2Proof

/-! ### Fields and numbers -/

theorem Fields.ofByte_toByte (f : Fields) : Fields.ofByte f.toByte = f := by
  obtain ⟨t, m, l⟩ := f
  revert t m l
  decide

theorem Fields.toByte_ofByte (b : Byte) : (Fields.ofByte b).toByte = b := by
  apply BitVec.eq_of_toNat_eq
  have := b.isLt
  simp only [Fields.ofByte, Fields.toByte, BitVec.toNat_ofNat, Fin.ofNat]
  omega

theorem leNat_leBytes (n v : Nat) : leNat (leBytes n v) = v % 256 ^ n := by
  induction n generalizing v with
  | zero => simp [leBytes, leNat, Nat.mod_one]
  | succ n ih =>
    simp only [leBytes, leNat, ih, BitVec.toNat_ofNat]
    rw [show (256 : Nat) ^ (n + 1) = 256 * 256 ^ n by ring, Nat.mod_mul]

theorem length_leBytes (n v : Nat) : (leBytes n v).length = n := by
  induction n generalizing v with
  | zero => rfl
  | succ n ih => simp [leBytes, ih]

theorem leBytes_leNat (bs : List Byte) : leBytes bs.length (leNat bs) = bs := by
  induction bs with
  | nil => rfl
  | cons b bs ih =>
    have hb : BitVec.ofNat 8 (b.toNat + 256 * leNat bs) = b := by
      apply BitVec.eq_of_toNat_eq
      have := b.isLt
      simp only [BitVec.toNat_ofNat]
      omega
    have hd : (b.toNat + 256 * leNat bs) / 256 = leNat bs := by
      have := b.isLt
      omega
    simp only [List.length_cons, leNat, leBytes, hb, hd, ih]

theorem leNat_lt (bs : List Byte) : leNat bs < 256 ^ bs.length := by
  induction bs with
  | nil => simp [leNat]
  | cons b bs ih =>
    have := b.isLt
    simp only [leNat, List.length_cons, Nat.pow_succ]
    omega

/-! ### Displacements -/

theorem takeWord16_leBytes (d : Word16) (rest : List Byte) : takeWord16 (leBytes 2 d.toNat ++ rest) = .ok d rest := by
  have h : leNat (leBytes 2 d.toNat) = d.toNat := by
    rw [leNat_leBytes]; exact Nat.mod_eq_of_lt d.isLt
  simp only [leBytes, List.cons_append, List.nil_append, takeWord16] at h ⊢
  rw [h, BitVec.ofNat_toNat, BitVec.setWidth_eq]

theorem takeWord32_leBytes (d : Word32) (rest : List Byte) : takeWord32 (leBytes 4 d.toNat ++ rest) = .ok d rest := by
  have h : leNat (leBytes 4 d.toNat) = d.toNat := by
    rw [leNat_leBytes]; exact Nat.mod_eq_of_lt d.isLt
  simp only [leBytes, List.cons_append, List.nil_append, takeWord32] at h ⊢
  rw [h, BitVec.ofNat_toNat, BitVec.setWidth_eq]

theorem takeDisp32_encode (d : Disp32) (rest : List Byte) : takeDisp32 d.mod (d.encode ++ rest) = .ok d rest := by
  cases d with
  | none => rfl
  | d8 v => rfl
  | d32 v => simp [takeDisp32, Disp32.mod, Disp32.encode, takeWord32_leBytes, Parsed.andThen]

theorem takeDisp16_encode (d : Disp16) (rest : List Byte) : takeDisp16 d.mod (d.encode ++ rest) = .ok d rest := by
  cases d with
  | none => rfl
  | d8 v => rfl
  | d16 v => simp [takeDisp16, Disp16.mod, Disp16.encode, takeWord16_leBytes, Parsed.andThen]

theorem indexOf_indexField {x : Option RegNum} (h : x ≠ some 4) : indexOf (indexField x) = x := by
  cases x with
  | none => rfl
  | some r =>
    have : r ≠ 4 := fun e => h (congrArg some e)
    simp [indexOf, indexField, this]

theorem indexField_indexOf (r : RegNum) : indexField (indexOf r) = r := by
  unfold indexOf
  split <;> simp_all [indexField]

/-! ### Prefixes and opcodes -/

theorem prefixOf_toByte (p : Prefix) : prefixOf p.toByte = some p := by
  cases p with
  | opSize => rfl
  | addrSize => rfl
  | seg r => cases r <;> rfl

theorem toByte_of_prefixOf {b : Byte} {p : Prefix} (h : prefixOf b = some p) : p.toByte = b := by
  unfold prefixOf at h
  repeat' split at h
  all_goals simp_all [Prefix.toByte]
  all_goals subst h; rfl

theorem laneOf_opcode (w : LaneWidth) : laneOf w.opcode = some w := by cases w <;> rfl

theorem opcode_of_laneOf {b : Byte} {w : LaneWidth} (h : laneOf b = some w) : w.opcode = b := by
  unfold laneOf at h
  repeat' split at h
  all_goals simp_all
  all_goals subst h; rfl

/-! ### More bytes behind what was read -/

theorem Parsed.andThen_eq_ok {α β : Type} {p : Parsed α} {f : α → List Byte → Parsed β} {v : β} {rest : List Byte} :
    p.andThen f = .ok v rest ↔ ∃ u mid, p = .ok u mid ∧ f u mid = .ok v rest := by
  cases p <;> simp [Parsed.andThen]

theorem takeByte_eq_ok {bs rest : List Byte} {b : Byte} : takeByte bs = .ok b rest ↔ bs = b :: rest := by
  cases bs <;> simp [takeByte]

end Sys2Proof
end

