-- ==== Sys2Proof/Laws/Lanes.lean ====
section
/-! SUPPORT. The lane function says what it does lane by lane and bit by bit; two values with the same lanes are the same. -/

namespace Sys2Proof.Machine

theorem laneBits_pos (w : LaneWidth) : 0 < w.bits := by cases w <;> decide

/-- A bit of the assembled result is the bit of its lane, and 0 above the lanes. -/
theorem getLsbD_lanesBelow {N : Nat} {w : Nat} (hw : 0 < w) (d s : BitVec N) (n b : Nat) (fits : w * n ≤ N) :
    (lanesBelow w d s n).getLsbD b = (decide (b < w * n) && (laneResult w (b / w) d s).getLsbD (b % w)) := by
  induction n with
  | zero => simp [lanesBelow]
  | succ n ih =>
    have step : w * (n + 1) = w * n + w := Nat.mul_succ w n
    have ih' := ih (by omega)
    simp only [lanesBelow, BitVec.getLsbD_or, BitVec.getLsbD_shiftLeft, BitVec.getLsbD_setWidth, ih']
    by_cases low : b < w * n
    · have : b < w * (n + 1) := by omega
      simp [low, this]
    · by_cases high : b < w * (n + 1)
      · have hq : b / w = n := by
          rw [Nat.div_eq_iff hw]
          constructor
          · rw [Nat.mul_comm]; omega
          · have := Nat.mul_comm n w
            omega
        have hr : b % w = b - w * n := by
          have := Nat.div_add_mod b w
          rw [hq] at this
          omega
        have hN : b < N := by omega
        have hN' : b - w * n < N := by omega
        simp [low, high, hq, hr, hN, hN']
      · have out : w ≤ b - w * n := by omega
        simp [low, high, BitVec.getLsbD_of_ge _ _ out]

/-- Lane `i` of the result (R71). -/
theorem laneAt_pcmpeq {N : Nat} (w : LaneWidth) (d s : BitVec N) {i : Nat} (h : i < N / w.bits) :
    laneAt w.bits i (pcmpeq w d s) = laneResult w.bits i d s := by
  have hw := laneBits_pos w
  have fits : w.bits * (N / w.bits) ≤ N := Nat.mul_div_le N w.bits
  apply BitVec.eq_of_getLsbD_eq
  intro j hj
  have hq : (w.bits * i + j) / w.bits = i := by
    rw [Nat.mul_add_div hw, Nat.div_eq_of_lt hj, Nat.add_zero]
  have hr : (w.bits * i + j) % w.bits = j := by
    rw [Nat.mul_add_mod, Nat.mod_eq_of_lt hj]
  have below : w.bits * i + j < w.bits * (N / w.bits) :=
    calc w.bits * i + j < w.bits * i + w.bits := by omega
      _ = w.bits * (i + 1) := (Nat.mul_succ _ _).symm
      _ ≤ w.bits * (N / w.bits) := Nat.mul_le_mul_left _ h
  simp only [laneAt, pcmpeq, BitVec.getLsbD_extractLsb', hj, decide_true, Bool.true_and,
    getLsbD_lanesBelow hw d s _ _ fits, below, hq, hr]

/-- Values whose lanes agree are equal, when the lanes fill them. -/
theorem eq_of_laneAt_eq {N : Nat} (w : LaneWidth) (fills : w.bits * (N / w.bits) = N) {x y : BitVec N}
    (h : ∀ i < N / w.bits, laneAt w.bits i x = laneAt w.bits i y) : x = y := by
  have hw := laneBits_pos w
  apply BitVec.eq_of_getLsbD_eq
  intro b hb
  have hi : b / w.bits < N / w.bits := by
    rw [Nat.div_lt_iff_lt_mul hw, Nat.mul_comm, fills]
    exact hb
  have := congrArg (fun v => v.getLsbD (b % w.bits)) (h _ hi)
  simpa [laneAt, BitVec.getLsbD_extractLsb', Nat.mod_lt _ hw, Nat.div_add_mod] using this

theorem lanes_fill64 (w : LaneWidth) : w.bits * (64 / w.bits) = 64 := by cases w <;> decide

theorem lanes_fill128 (w : LaneWidth) : w.bits * (128 / w.bits) = 128 := by cases w <;> decide

end Sys2Proof.Machine
end

