-- ==== Sys2Proof/Laws/State.lean ====
section
/-! SUPPORT. One lemma per field per update of the state, true by rfl, and what each accessor reads after an update. -/

namespace Sys2Proof.Machine

@[simp] theorem State.writeMM_mm (s : State) (i : RegNum) (v : Word64) : (s.writeMM i v).mm = s.mm.set i.val v i.isLt := rfl
@[simp] theorem State.writeMM_xmm (s : State) (i : RegNum) (v : Word64) : (s.writeMM i v).xmm = s.xmm := rfl
@[simp] theorem State.writeMM_gpr (s : State) (i : RegNum) (v : Word64) : (s.writeMM i v).gpr = s.gpr := rfl
@[simp] theorem State.writeMM_eip (s : State) (i : RegNum) (v : Word64) : (s.writeMM i v).eip = s.eip := rfl
@[simp] theorem State.writeMM_segs (s : State) (i : RegNum) (v : Word64) : (s.writeMM i v).segs = s.segs := rfl
@[simp] theorem State.writeMM_cr0EM (s : State) (i : RegNum) (v : Word64) : (s.writeMM i v).cr0EM = s.cr0EM := rfl
@[simp] theorem State.writeMM_cr0TS (s : State) (i : RegNum) (v : Word64) : (s.writeMM i v).cr0TS = s.cr0TS := rfl
@[simp] theorem State.writeMM_cr4OSFXSR (s : State) (i : RegNum) (v : Word64) : (s.writeMM i v).cr4OSFXSR = s.cr4OSFXSR := rfl
@[simp] theorem State.writeMM_x87Pending (s : State) (i : RegNum) (v : Word64) : (s.writeMM i v).x87Pending = s.x87Pending := rfl
@[simp] theorem State.writeMM_mode (s : State) (i : RegNum) (v : Word64) : (s.writeMM i v).mode = s.mode := rfl
@[simp] theorem State.writeMM_mem (s : State) (i : RegNum) (v : Word64) : (s.writeMM i v).mem = s.mem := rfl
@[simp] theorem State.writeMM_plat (s : State) (i : RegNum) (v : Word64) : (s.writeMM i v).plat = s.plat := rfl
@[simp] theorem State.writeMM_draw (s : State) (i : RegNum) (v : Word64) : (s.writeMM i v).draw = s.draw := rfl

@[simp] theorem State.writeXMM_mm (s : State) (i : RegNum) (v : Word128) : (s.writeXMM i v).mm = s.mm := rfl
@[simp] theorem State.writeXMM_xmm (s : State) (i : RegNum) (v : Word128) : (s.writeXMM i v).xmm = s.xmm.set i.val v i.isLt := rfl
@[simp] theorem State.writeXMM_gpr (s : State) (i : RegNum) (v : Word128) : (s.writeXMM i v).gpr = s.gpr := rfl
@[simp] theorem State.writeXMM_eip (s : State) (i : RegNum) (v : Word128) : (s.writeXMM i v).eip = s.eip := rfl
@[simp] theorem State.writeXMM_segs (s : State) (i : RegNum) (v : Word128) : (s.writeXMM i v).segs = s.segs := rfl
@[simp] theorem State.writeXMM_cr0EM (s : State) (i : RegNum) (v : Word128) : (s.writeXMM i v).cr0EM = s.cr0EM := rfl
@[simp] theorem State.writeXMM_cr0TS (s : State) (i : RegNum) (v : Word128) : (s.writeXMM i v).cr0TS = s.cr0TS := rfl
@[simp] theorem State.writeXMM_cr4OSFXSR (s : State) (i : RegNum) (v : Word128) : (s.writeXMM i v).cr4OSFXSR = s.cr4OSFXSR := rfl
@[simp] theorem State.writeXMM_x87Pending (s : State) (i : RegNum) (v : Word128) : (s.writeXMM i v).x87Pending = s.x87Pending := rfl
@[simp] theorem State.writeXMM_mode (s : State) (i : RegNum) (v : Word128) : (s.writeXMM i v).mode = s.mode := rfl
@[simp] theorem State.writeXMM_mem (s : State) (i : RegNum) (v : Word128) : (s.writeXMM i v).mem = s.mem := rfl
@[simp] theorem State.writeXMM_plat (s : State) (i : RegNum) (v : Word128) : (s.writeXMM i v).plat = s.plat := rfl
@[simp] theorem State.writeXMM_draw (s : State) (i : RegNum) (v : Word128) : (s.writeXMM i v).draw = s.draw := rfl

@[simp] theorem State.setEip_mm (s : State) (v : Word32) : (s.setEip v).mm = s.mm := rfl
@[simp] theorem State.setEip_xmm (s : State) (v : Word32) : (s.setEip v).xmm = s.xmm := rfl
@[simp] theorem State.setEip_gpr (s : State) (v : Word32) : (s.setEip v).gpr = s.gpr := rfl
@[simp] theorem State.setEip_eip (s : State) (v : Word32) : (s.setEip v).eip = v := rfl
@[simp] theorem State.setEip_segs (s : State) (v : Word32) : (s.setEip v).segs = s.segs := rfl
@[simp] theorem State.setEip_cr0EM (s : State) (v : Word32) : (s.setEip v).cr0EM = s.cr0EM := rfl
@[simp] theorem State.setEip_cr0TS (s : State) (v : Word32) : (s.setEip v).cr0TS = s.cr0TS := rfl
@[simp] theorem State.setEip_cr4OSFXSR (s : State) (v : Word32) : (s.setEip v).cr4OSFXSR = s.cr4OSFXSR := rfl
@[simp] theorem State.setEip_x87Pending (s : State) (v : Word32) : (s.setEip v).x87Pending = s.x87Pending := rfl
@[simp] theorem State.setEip_mode (s : State) (v : Word32) : (s.setEip v).mode = s.mode := rfl
@[simp] theorem State.setEip_mem (s : State) (v : Word32) : (s.setEip v).mem = s.mem := rfl
@[simp] theorem State.setEip_plat (s : State) (v : Word32) : (s.setEip v).plat = s.plat := rfl
@[simp] theorem State.setEip_draw (s : State) (v : Word32) : (s.setEip v).draw = s.draw := rfl

@[simp] theorem State.withFetchWord_mm (s : State) (nbits w : Nat) : (s.withFetchWord nbits w).mm = s.mm := rfl
@[simp] theorem State.withFetchWord_xmm (s : State) (nbits w : Nat) : (s.withFetchWord nbits w).xmm = s.xmm := rfl
@[simp] theorem State.withFetchWord_gpr (s : State) (nbits w : Nat) : (s.withFetchWord nbits w).gpr = s.gpr := rfl
@[simp] theorem State.withFetchWord_eip (s : State) (nbits w : Nat) : (s.withFetchWord nbits w).eip = s.eip := rfl
@[simp] theorem State.withFetchWord_segs (s : State) (nbits w : Nat) : (s.withFetchWord nbits w).segs = s.segs := rfl
@[simp] theorem State.withFetchWord_cr0EM (s : State) (nbits w : Nat) : (s.withFetchWord nbits w).cr0EM = s.cr0EM := rfl
@[simp] theorem State.withFetchWord_cr0TS (s : State) (nbits w : Nat) : (s.withFetchWord nbits w).cr0TS = s.cr0TS := rfl
@[simp] theorem State.withFetchWord_cr4OSFXSR (s : State) (nbits w : Nat) : (s.withFetchWord nbits w).cr4OSFXSR = s.cr4OSFXSR := rfl
@[simp] theorem State.withFetchWord_x87Pending (s : State) (nbits w : Nat) : (s.withFetchWord nbits w).x87Pending = s.x87Pending := rfl
@[simp] theorem State.withFetchWord_mode (s : State) (nbits w : Nat) : (s.withFetchWord nbits w).mode = s.mode := rfl
@[simp] theorem State.withFetchWord_mem (s : State) (nbits w : Nat) : (s.withFetchWord nbits w).mem = placeBytes s 0 (tableWordBytes nbits w) s.mem := rfl
@[simp] theorem State.withFetchWord_plat (s : State) (nbits w : Nat) : (s.withFetchWord nbits w).plat = s.plat := rfl
@[simp] theorem State.withFetchWord_draw (s : State) (nbits w : Nat) : (s.withFetchWord nbits w).draw = s.draw := rfl

@[simp] theorem State.readMM_writeMM_same (s : State) (i : RegNum) (v : Word64) : (s.writeMM i v).readMM i = v := by
  simp [State.readMM, State.writeMM]

theorem State.readMM_writeMM_other (s : State) {i j : RegNum} (v : Word64) (h : j ≠ i) :
    (s.writeMM i v).readMM j = s.readMM j := by
  have h' : i.val ≠ j.val := fun e => h (Fin.ext e.symm)
  simp [State.readMM, State.writeMM, Vector.getElem_set_ne, h']

@[simp] theorem State.readXMM_writeXMM_same (s : State) (i : RegNum) (v : Word128) :
    (s.writeXMM i v).readXMM i = v := by
  simp [State.readXMM, State.writeXMM]

theorem State.readXMM_writeXMM_other (s : State) {i j : RegNum} (v : Word128) (h : j ≠ i) :
    (s.writeXMM i v).readXMM j = s.readXMM j := by
  have h' : i.val ≠ j.val := fun e => h (Fin.ext e.symm)
  simp [State.readXMM, State.writeXMM, Vector.getElem_set_ne, h']

@[simp] theorem State.readXMM_writeMM (s : State) (i j : RegNum) (v : Word64) :
    (s.writeMM i v).readXMM j = s.readXMM j := rfl

@[simp] theorem State.readMM_writeXMM (s : State) (i j : RegNum) (v : Word128) :
    (s.writeXMM i v).readMM j = s.readMM j := rfl

@[simp] theorem State.readMM_setEip (s : State) (v : Word32) (i : RegNum) : (s.setEip v).readMM i = s.readMM i := rfl

@[simp] theorem State.readXMM_setEip (s : State) (v : Word32) (i : RegNum) : (s.setEip v).readXMM i = s.readXMM i := rfl

@[simp] theorem State.segment_writeMM (s : State) (i : RegNum) (v : Word64) (r : SegReg) : (s.writeMM i v).segment r = s.segment r := rfl
@[simp] theorem State.gpr32_writeMM (s : State) (i : RegNum) (v : Word64) (r : RegNum) : (s.writeMM i v).gpr32 r = s.gpr32 r := rfl
@[simp] theorem State.offsetTop_writeMM (s : State) (i : RegNum) (v : Word64) : (s.writeMM i v).offsetTop = s.offsetTop := rfl

@[simp] theorem State.segment_writeXMM (s : State) (i : RegNum) (v : Word128) (r : SegReg) : (s.writeXMM i v).segment r = s.segment r := rfl
@[simp] theorem State.gpr32_writeXMM (s : State) (i : RegNum) (v : Word128) (r : RegNum) : (s.writeXMM i v).gpr32 r = s.gpr32 r := rfl
@[simp] theorem State.offsetTop_writeXMM (s : State) (i : RegNum) (v : Word128) : (s.writeXMM i v).offsetTop = s.offsetTop := rfl

@[simp] theorem State.segment_setEip (s : State) (v : Word32) (r : SegReg) : (s.setEip v).segment r = s.segment r := rfl
@[simp] theorem State.gpr32_setEip (s : State) (v : Word32) (r : RegNum) : (s.setEip v).gpr32 r = s.gpr32 r := rfl
@[simp] theorem State.offsetTop_setEip (s : State) (v : Word32) : (s.setEip v).offsetTop = s.offsetTop := rfl

@[simp] theorem State.segBase_writeMM (s : State) (i : RegNum) (v : Word64) (r : SegReg) : (s.writeMM i v).segBase r = s.segBase r := rfl
@[simp] theorem State.segBase_writeXMM (s : State) (i : RegNum) (v : Word128) (r : SegReg) : (s.writeXMM i v).segBase r = s.segBase r := rfl
@[simp] theorem State.segBase_setEip (s : State) (v : Word32) (r : SegReg) : (s.setEip v).segBase r = s.segBase r := rfl

/-- `SegBase` in Protected mode (R33). -/
theorem State.segBase_of_protected {s : State} (h : s.mode = .protectedMode) (r : SegReg) :
    s.segBase r = (s.segment r).base := by
  simp [State.segBase, h]

/-- `SegBase` in Real and V86 mode (R35). -/
theorem State.segBase_toNat_of_not_protected {s : State} (h : s.mode ≠ .protectedMode) (r : SegReg) :
    (s.segBase r).toNat = 16 * (s.segment r).selector.toNat := by
  have bound := (s.segment r).selector.isLt
  cases mode : s.mode with
  | protectedMode => exact absurd mode h
  | realMode => simp [State.segBase, mode]; omega
  | v86Mode => simp [State.segBase, mode]; omega

@[simp] theorem State.onDefaultPlatform_mode (s : State) (a : AddrSize) : (s.onDefaultPlatform a).mode = s.mode := rfl
@[simp] theorem State.onDefaultPlatform_plat (s : State) (a : AddrSize) : (s.onDefaultPlatform a).plat = Platform.byDefault a := rfl

/-- Every segment of the default platform is flat (R5, R33). -/
@[simp] theorem State.onDefaultPlatform_segment (s : State) (a : AddrSize) (r : SegReg) :
    (s.onDefaultPlatform a).segment r = Segment.flat := by
  cases r <;> rfl

@[simp] theorem State.onDefaultPlatform_segBase (s : State) (a : AddrSize) (r : SegReg) :
    (s.onDefaultPlatform a).segBase r = 0#32 := by
  unfold State.segBase
  split <;> simp [Segment.flat]

end Sys2Proof.Machine
end

