-- ==== Sys2Proof/Laws/Memory.lean ====
section
/-! SUPPORT. The laws of memory: a write keeps the canonical form, a read after a write, and equal reads of canonical memories
make equal lists. -/

namespace Sys2Proof.Machine

theorem Memory.wfFrom_cons {low a : Nat} {b : Byte} {m : Memory} :
    Memory.wfFrom low ((a, b) :: m) = true ↔ low ≤ a ∧ b ≠ Memory.unlisted ∧ Memory.wfFrom (a + 1) m = true := by
  simp [Memory.wfFrom, and_assoc]

theorem Memory.wfFrom_mono {low low' : Nat} {m : Memory} (h : Memory.wfFrom low m = true) (le : low' ≤ low) :
    Memory.wfFrom low' m = true := by
  cases m with
  | nil => rfl
  | cons c m =>
    obtain ⟨a, b⟩ := c
    rw [wfFrom_cons] at h ⊢
    exact ⟨le.trans h.1, h.2⟩

/-- Below the first address of a canonical memory everything reads as unlisted. -/
theorem Memory.read_below {low x : Nat} {m : Memory} (h : Memory.wfFrom low m = true) (lt : x < low) :
    Memory.read m x = Memory.unlisted := by
  induction m generalizing low with
  | nil => rfl
  | cons c m ih =>
    obtain ⟨a, b⟩ := c
    rw [wfFrom_cons] at h
    have ne : a ≠ x := by omega
    simp only [Memory.read, ne, if_false]
    exact ih h.2.2 (by omega)

theorem Memory.wfFrom_write {low x : Nat} {m : Memory} (v : Byte) (h : Memory.wfFrom low m = true) (le : low ≤ x) :
    Memory.wfFrom low (Memory.write m x v) = true := by
  induction m generalizing low with
  | nil =>
    by_cases hv : v = Memory.unlisted <;> simp [Memory.write, Memory.wfFrom, hv, le]
  | cons c m ih =>
    obtain ⟨a, b⟩ := c
    have h' := wfFrom_cons.mp h
    unfold Memory.write
    split
    · split
      · exact h
      · next lt hv => exact wfFrom_cons.mpr ⟨le, hv, wfFrom_cons.mpr ⟨lt, h'.2⟩⟩
    · split
      · next eq =>
        split
        · exact wfFrom_mono h'.2.2 (by omega)
        · next hv => exact wfFrom_cons.mpr ⟨le, hv, eq ▸ h'.2.2⟩
      · exact wfFrom_cons.mpr ⟨h'.1, h'.2.1, ih h'.2.2 (by omega)⟩

/-- A write keeps the canonical form. -/
theorem Memory.wf_write {m : Memory} (x : Nat) (v : Byte) (h : m.wf = true) : (m.write x v).wf = true :=
  Memory.wfFrom_write v h (Nat.zero_le x)

theorem Memory.read_write_from {low : Nat} {m : Memory} (x y : Nat) (v : Byte) (h : Memory.wfFrom low m = true) :
    Memory.read (Memory.write m x v) y = if y = x then v else Memory.read m y := by
  induction m generalizing low with
  | nil =>
    by_cases hv : v = Memory.unlisted <;> by_cases hy : y = x <;>
      simp [Memory.write, Memory.read, hv, hy, eq_comm]
    exact fun e => absurd e.symm hy
  | cons c m ih =>
    obtain ⟨a, b⟩ := c
    obtain ⟨-, hb, hm⟩ := wfFrom_cons.mp h
    unfold Memory.write
    split
    · next lt =>
      have hx : a ≠ x := by omega
      have hr : Memory.read m x = Memory.unlisted := read_below hm (by omega)
      by_cases hv : v = Memory.unlisted
      · by_cases hy : y = x <;> simp [Memory.read, hv, hy, hx, hr]
      · by_cases hy : y = x
        · simp [Memory.read, hv, hy]
        · simp [Memory.read, hv, hy, Ne.symm hy]
    · split
      · next eq =>
        subst eq
        have hr : Memory.read m x = Memory.unlisted := read_below hm (by omega)
        by_cases hv : v = Memory.unlisted
        · by_cases hy : y = x
          · simp [hv, hy, hr]
          · simp [Memory.read, hv, hy, Ne.symm hy]
        · by_cases hy : y = x
          · simp [Memory.read, hv, hy]
          · simp [Memory.read, hv, hy, Ne.symm hy]
      · next ne =>
        simp only [Memory.read, ih hm]
        by_cases ha : a = y
        · have : y ≠ x := by omega
          simp [ha, this]
        · simp [ha]

/-- A read after a write gives the value written at its address and what was there at every other. -/
theorem Memory.read_write {m : Memory} (x y : Nat) (v : Byte) (h : m.wf = true) :
    (m.write x v).read y = if y = x then v else m.read y :=
  Memory.read_write_from x y v h

theorem Memory.ext_from {low : Nat} {m m' : Memory} (h : Memory.wfFrom low m = true) (h' : Memory.wfFrom low m' = true)
    (eq : ∀ x, m.read x = m'.read x) : m = m' := by
  induction m generalizing low m' with
  | nil =>
    cases m' with
    | nil => rfl
    | cons c m' =>
      obtain ⟨a, b⟩ := c
      have := eq a
      simp only [Memory.read, if_true] at this
      exact absurd this.symm (wfFrom_cons.mp h').2.1
  | cons c m ih =>
    obtain ⟨a, b⟩ := c
    obtain ⟨-, hb, hm⟩ := wfFrom_cons.mp h
    cases m' with
    | nil =>
      have := eq a
      simp only [Memory.read, if_true] at this
      exact absurd this hb
    | cons c' m' =>
      obtain ⟨a', b'⟩ := c'
      obtain ⟨-, hb', hm'⟩ := wfFrom_cons.mp h'
      have same : a = a' := by
        by_contra ne
        rcases Nat.lt_or_gt_of_ne ne with lt | gt
        · have e := eq a
          have hne : a' ≠ a := fun e => ne e.symm
          simp only [Memory.read, if_true, if_neg hne, read_below hm' (show a < a' + 1 by omega)] at e
          exact hb e
        · have e := eq a'
          simp only [Memory.read, if_true, if_neg ne, read_below hm (show a' < a + 1 by omega)] at e
          exact hb' e.symm
      subst same
      have hv : b = b' := by
        have e := eq a
        simpa [Memory.read] using e
      subst hv
      congr 1
      refine ih hm hm' fun x => ?_
      by_cases hx : a = x
      · subst hx
        rw [read_below hm (Nat.lt_succ_self a), read_below hm' (Nat.lt_succ_self a)]
      · simpa [Memory.read, hx] using eq x

/-- Canonical memories that read alike are the same list. -/
theorem Memory.ext_read {m m' : Memory} (h : m.wf = true) (h' : m'.wf = true) (eq : ∀ x, m.read x = m'.read x) :
    m = m' :=
  Memory.ext_from h h' eq

/-- Placing bytes where the fetch reads keeps the canonical form. -/
theorem wf_placeBytes (s : State) (k : Nat) (bs : List Byte) {m : Memory} (h : m.wf = true) :
    (placeBytes s k bs m).wf = true := by
  induction bs generalizing k m with
  | nil => exact h
  | cons b bs ih =>
    unfold placeBytes
    split
    · exact ih (k + 1) (Memory.wf_write _ _ h)
    · exact ih (k + 1) h

theorem wf_reset : State.reset.mem.wf = true := rfl

theorem wf_withFetchWord (s : State) (nbits w : Nat) (h : s.mem.wf = true) : (s.withFetchWord nbits w).mem.wf = true :=
  wf_placeBytes s 0 _ h

end Sys2Proof.Machine
end

