-- ==== Sys2Proof/Laws/Ops.lean ====
section
/-! SUPPORT. What each shared operation of the execution template can do, said once: the combinators, the completion, the
control tests and the checked operand read. -/

namespace Sys2Proof.Machine

/-! ### The combinators -/

theorem andThen_eq_next {α β : Type} {o : Result α} {f : α → Result β} {t : β} :
    andThen o f = .next t ↔ ∃ v, o = .next v ∧ f v = .next t := by
  cases o <;> simp [andThen]

theorem andThen_eq_fault {α β : Type} {o : Result α} {f : α → Result β} {e : Fault} :
    andThen o f = .fault e ↔ o = .fault e ∨ ∃ v, o = .next v ∧ f v = .fault e := by
  cases o <;> simp [andThen]

theorem andThen_eq_refused {α β : Type} {o : Result α} {f : α → Result β} {r : Refusal} :
    andThen o f = .refused r ↔ o = .refused r ∨ ∃ v, o = .next v ∧ f v = .refused r := by
  cases o <;> simp [andThen]

theorem afterTests_eq_next {α : Type} {test : Option Fault} {go : Result α} {t : α} :
    afterTests test go = .next t ↔ test = none ∧ go = .next t := by
  cases test <;> simp [afterTests, raise]

theorem afterTests_eq_fault {α : Type} {test : Option Fault} {go : Result α} {e : Fault} :
    afterTests test go = .fault e ↔ test = some e ∨ test = none ∧ go = .fault e := by
  cases test <;> simp [afterTests, raise]

theorem afterTests_eq_refused {α : Type} {test : Option Fault} {go : Result α} {r : Refusal} :
    afterTests test go = .refused r ↔ test = none ∧ go = .refused r := by
  cases test <;> simp [afterTests, raise]

theorem needMMX_eq_next {α : Type} {s : State} {go : Result α} {t : α} :
    needMMX s go = .next t ↔ s.plat.hasMMX = true ∧ go = .next t := by
  unfold needMMX
  split <;> simp_all

theorem needMMX_eq_fault {α : Type} {s : State} {go : Result α} {e : Fault} :
    needMMX s go = .fault e ↔ s.plat.hasMMX = true ∧ go = .fault e := by
  unfold needMMX
  split <;> simp_all

/-! ### Completion -/

theorem advance_eq_next {len : Nat} {t u : State} :
    advance len t = .next u ↔ t.eip.toNat + len ≤ t.offsetTop ∧ u = t.setEip (t.eip + BitVec.ofNat 32 len) := by
  unfold advance
  split
  · simp; omega
  · simp [eq_comm]; omega

theorem advance_ne_fault {len : Nat} {t : State} {e : Fault} : advance len t ≠ .fault e := by
  unfold advance
  split <;> simp

theorem advance_eq_refused {len : Nat} {t : State} {r : Refusal} :
    advance len t = .refused r ↔ t.offsetTop < t.eip.toNat + len ∧ r = .fetchWrap := by
  unfold advance
  split
  · simp [eq_comm]; omega
  · simp; omega

/-! ### The control tests -/

theorem controlTests64_eq_none {s : State} :
    controlTests64 s = none ↔ s.cr0EM = false ∧ s.cr0TS = false ∧ s.x87Pending = false := by
  cases h1 : s.cr0EM <;> cases h2 : s.cr0TS <;> cases h3 : s.x87Pending <;> simp [controlTests64, h1, h2, h3]

theorem controlTests128_eq_none {s : State} :
    controlTests128 s = none ↔ s.cr0EM = false ∧ s.cr4OSFXSR = true ∧ s.cr0TS = false := by
  cases h1 : s.cr0EM <;> cases h2 : s.cr4OSFXSR <;> cases h3 : s.cr0TS <;> simp [controlTests128, h1, h2, h3]

/-! ### The checked operand read -/

theorem faultCodes_eq_nil {ts : List Translated} : faultCodes ts = [] ↔ ∀ t ∈ ts, ∃ p, t = .phys p := by
  induction ts with
  | nil => simp [faultCodes]
  | cons t ts ih => cases t <;> simp [faultCodes, ih]

theorem mem_faultCodes {ts : List Translated} {code : Nat} : code ∈ faultCodes ts ↔ .pageFault code ∈ ts := by
  induction ts with
  | nil => simp [faultCodes]
  | cons t ts ih => cases t <;> simp [faultCodes, ih]

/-- The reported code is one of the codes. -/
theorem reportedCode_mem (s : State) (ea : Word32) (first : Nat) (others : List Nat) :
    reportedCode s ea first others ∈ first :: others := by
  unfold reportedCode
  split
  · simp
  · have lt : Config.pageFaultDrawn s.draw s.eip ea % (others.length + 1) < (first :: others).length := by
      simpa using Nat.mod_lt _ (Nat.succ_pos others.length)
    rw [List.getD_eq_getElem _ _ lt]
    exact List.getElem_mem lt

theorem readTranslated_eq_next {s : State} {ea : Word32} {n : Nat} {ts : List Translated} {v : BitVec (8 * n)} :
    readTranslated s ea n ts = .next v ↔
      (∀ t ∈ ts, ∃ p, t = .phys p) ∧ v = BitVec.ofNat (8 * n) (leNat (ts.map s.byteBehind)) := by
  rw [← faultCodes_eq_nil]
  unfold readTranslated
  cases faultCodes ts with
  | nil => simp only [Host.Outcome.next.injEq, true_and, eq_comm]
  | cons code codes => simp [raise]

theorem readTranslated_ne_refused {s : State} {ea : Word32} {n : Nat} {ts : List Translated} {r : Refusal} :
    readTranslated s ea n ts ≠ .refused r := by
  unfold readTranslated
  split <;> simp [raise]

/-- A fault of the translation is #PF with the code of one of the bytes. -/
theorem readTranslated_eq_fault {s : State} {ea : Word32} {n : Nat} {ts : List Translated} {e : Fault}
    (h : readTranslated s ea n ts = .fault e) : ∃ code, e = .pf code ∧ .pageFault code ∈ ts := by
  unfold readTranslated at h
  split at h
  · simp at h
  · next code codes eq =>
    simp only [raise, Host.Outcome.fault.injEq] at h
    exact ⟨_, h.symm, mem_faultCodes.mp (eq ▸ reportedCode_mem s ea code codes)⟩

/-- The segment step raises #GP(0) or #SS(0) and nothing else. -/
theorem segmentFault_eq_some {s : State} {seg : SegReg} {ea : Word32} {n : Nat} {e : Fault}
    (h : segmentFault s seg ea n = some e) : e = .gp ∨ e = .ss := by
  unfold segmentFault at h
  split at h
  · split at h <;> simp_all
  · split at h
    · simp_all
    · split at h <;> simp_all

theorem segmentFault_eq_none {s : State} {seg : SegReg} {ea : Word32} {n : Nat} :
    segmentFault s seg ea n = none ↔ limitBad s seg ea n = false ∧ alignBad s seg ea n = false := by
  cases h1 : limitBad s seg ea n <;> cases h2 : alignBad s seg ea n <;> cases h3 : stackChecked s seg <;>
    simp [segmentFault, h1, h2, h3]

/-- What the checked operand read answers as a value (R38). -/
theorem readOperand_eq_next {s : State} {seg : SegReg} {ea : Word32} {n : Nat} {v : BitVec (8 * n)} :
    readOperand s seg ea n = .next v ↔
      operandRefusal s seg ea n = none ∧ limitBad s seg ea n = false ∧ alignBad s seg ea n = false ∧
        (∀ t ∈ translateOperand s seg ea n, ∃ p, t = .phys p) ∧
        v = BitVec.ofNat (8 * n) (leNat ((translateOperand s seg ea n).map s.byteBehind)) := by
  unfold readOperand
  cases h1 : operandRefusal s seg ea n with
  | some r => simp
  | none =>
    cases h2 : segmentFault s seg ea n with
    | some e =>
      have : ¬ (limitBad s seg ea n = false ∧ alignBad s seg ea n = false) := by
        rw [← segmentFault_eq_none, h2]; simp
      simp only [raise, reduceCtorEq, false_iff]
      exact fun h => this ⟨h.2.1, h.2.2.1⟩
    | none =>
      have := segmentFault_eq_none.mp h2
      simp only [readTranslated_eq_next, this, true_and]

/-- The faults of the checked operand read (R38): a segment exception, or #PF of one of its bytes. -/
theorem readOperand_eq_fault {s : State} {seg : SegReg} {ea : Word32} {n : Nat} {e : Fault}
    (h : readOperand s seg ea n = .fault e) :
    operandRefusal s seg ea n = none ∧
      (segmentFault s seg ea n = some e ∨
        segmentFault s seg ea n = none ∧ ∃ code, e = .pf code ∧ .pageFault code ∈ translateOperand s seg ea n) := by
  unfold readOperand at h
  cases h1 : operandRefusal s seg ea n with
  | some r => simp [h1] at h
  | none =>
    cases h2 : segmentFault s seg ea n with
    | some e' => simp_all [raise]
    | none =>
      simp only [h1, h2] at h
      exact ⟨rfl, .inr ⟨rfl, readTranslated_eq_fault h⟩⟩

theorem readOperand_eq_refused {s : State} {seg : SegReg} {ea : Word32} {n : Nat} {r : Refusal} :
    readOperand s seg ea n = .refused r ↔ operandRefusal s seg ea n = some r := by
  unfold readOperand
  cases h1 : operandRefusal s seg ea n with
  | some r' => simp
  | none =>
    cases h2 : segmentFault s seg ea n with
    | some e' => simp [raise]
    | none => simp [readTranslated_ne_refused]

end Sys2Proof.Machine
end

