-- ==== Sys2Proof/Laws/Exec.lean ====
section
/-! SUPPORT. What executing an instruction can do, said once: every form is R70 at one of the two operand sizes, and each
outcome of the template is characterised by its conditions. -/

namespace Sys2Proof.Machine

/-- Every form is the execution template R70 at its lane width and at the operand size of R63. -/
theorem exec_eq (i : Instr) (s : State) :
    exec i s = if wideOp s i then compare128 i.lane i.prefixes i.dst i.src s
      else compare64 i.lane i.prefixes i.dst i.src s := by
  cases i <;> cases h : s.plat.hasSSE2 <;>
    simp [exec, wideOp, Instr.wide, Instr.lane, Instr.prefixes, Instr.dst, Instr.src, h, execPcmpeqbMm, execPcmpeqbXmm,
      execPcmpeqwMm, execPcmpeqwXmm, execPcmpeqdMm, execPcmpeqdXmm]

/-- The control tests of a form (R70 steps 1 to 4). -/
def controlTests (s : State) (i : Instr) : Option Fault := if wideOp s i then controlTests128 s else controlTests64 s

theorem compare64_eq_next {w : LaneWidth} {ps : List Prefix} {dst : RegNum} {src : Operand} {s t : State} :
    compare64 w ps dst src s = .next t ↔
      s.plat.hasMMX = true ∧ controlTests64 s = none ∧ ∃ v, source64 s ps src = .next v ∧
        s.eip.toNat + instrLength ps src ≤ s.offsetTop ∧
        t = (s.writeMM dst (pcmpeq w (s.readMM dst) v)).setEip (s.eip + BitVec.ofNat 32 (instrLength ps src)) := by
  simp only [compare64, needMMX_eq_next, afterTests_eq_next, andThen_eq_next, advance_eq_next, State.offsetTop_writeMM,
    State.writeMM_eip]

theorem compare128_eq_next {w : LaneWidth} {ps : List Prefix} {dst : RegNum} {src : Operand} {s t : State} :
    compare128 w ps dst src s = .next t ↔
      s.plat.hasMMX = true ∧ controlTests128 s = none ∧ ∃ v, source128 s ps src = .next v ∧
        s.eip.toNat + instrLength ps src ≤ s.offsetTop ∧
        t = (s.writeXMM dst (pcmpeq w (s.readXMM dst) v)).setEip (s.eip + BitVec.ofNat 32 (instrLength ps src)) := by
  simp only [compare128, needMMX_eq_next, afterTests_eq_next, andThen_eq_next, advance_eq_next, State.offsetTop_writeXMM,
    State.writeXMM_eip]

theorem compare64_eq_fault {w : LaneWidth} {ps : List Prefix} {dst : RegNum} {src : Operand} {s : State} {e : Fault} :
    compare64 w ps dst src s = .fault e ↔
      s.plat.hasMMX = true ∧
        (controlTests64 s = some e ∨ controlTests64 s = none ∧ source64 s ps src = .fault e) := by
  simp [compare64, needMMX_eq_fault, afterTests_eq_fault, andThen_eq_fault, advance_ne_fault]

theorem compare128_eq_fault {w : LaneWidth} {ps : List Prefix} {dst : RegNum} {src : Operand} {s : State} {e : Fault} :
    compare128 w ps dst src s = .fault e ↔
      s.plat.hasMMX = true ∧
        (controlTests128 s = some e ∨ controlTests128 s = none ∧ source128 s ps src = .fault e) := by
  simp [compare128, needMMX_eq_fault, afterTests_eq_fault, andThen_eq_fault, advance_ne_fault]

/-- A completed instruction's next state: one register of one file, and `EIP` (R70 steps 8 and 9). -/
theorem exec_next_cases {i : Instr} {s t : State} (h : exec i s = .next t) :
    s.eip.toNat + i.length ≤ s.offsetTop ∧
      ((wideOp s i = false ∧ ∃ v, t = (s.writeMM i.dst v).setEip (s.eip + BitVec.ofNat 32 i.length)) ∨
        (wideOp s i = true ∧ ∃ v, t = (s.writeXMM i.dst v).setEip (s.eip + BitVec.ofNat 32 i.length))) := by
  rw [exec_eq] at h
  cases hw : wideOp s i with
  | false =>
    simp only [hw, Bool.false_eq_true, if_false, compare64_eq_next] at h
    obtain ⟨-, -, v, -, room, eq⟩ := h
    exact ⟨room, .inl ⟨rfl, _, eq⟩⟩
  | true =>
    simp only [hw, if_true, compare128_eq_next] at h
    obtain ⟨-, -, v, -, room, eq⟩ := h
    exact ⟨room, .inr ⟨rfl, _, eq⟩⟩

/-- A step that answers a next state executed an instruction that did. -/
theorem step_eq_next {s t : State} : step s = .next t ↔ ∃ i, fetchDecode s = .next i ∧ exec i s = .next t := by
  simp [step, andThen_eq_next]

/-- The fetch answers the instruction that the decoder reads from the bytes fetched (R48, R63). -/
theorem fetchDecode_eq_next {s : State} {i : Instr} :
    fetchDecode s = .next i ↔ ∃ rest, decode s.defaultAddrSize (fetchBytes s Config.maxLength 0).1 = .ok i rest := by
  unfold fetchDecode
  split <;> simp_all

/-- A fetch never raises an exception (R48: it is refused instead). -/
theorem fetchDecode_ne_fault {s : State} {e : Fault} : fetchDecode s ≠ .fault e := by
  unfold fetchDecode
  split <;> simp

/-- A step that faults executed an instruction that did. -/
theorem step_eq_fault {s : State} {e : Fault} : step s = .fault e ↔ ∃ i, fetchDecode s = .next i ∧ exec i s = .fault e := by
  simp [step, andThen_eq_fault, fetchDecode_ne_fault]

/-- `run` is the host's run of the machine. -/
theorem run_eq_core_run (k : Nat) (s : State) : run k s = Sys2Proof.core.run k s := by
  induction k generalizing s with
  | zero => rfl
  | succ k ih =>
    have unfolded : ∀ o : Result State, Sys2Proof.core.step s = o →
        Sys2Proof.core.run (k + 1) s = andThen o (Sys2Proof.core.run k) := by
      intro o h
      simp only [Host.Core.run, h]
      cases o <;> rfl
    rw [unfolded (step s) rfl]
    show andThen (step s) (run k) = _
    cases step s with
    | next t => exact ih t
    | fault e => rfl
    | refused r => rfl

theorem run_succ_eq_next {k : Nat} {s t : State} :
    run (k + 1) s = .next t ↔ ∃ u, step s = .next u ∧ run k u = .next t := by
  simp [run, andThen_eq_next]

end Sys2Proof.Machine
end

