-- ==== Sys2Proof/Laws/PerInstr.lean ====
section
/-! SUPPORT. Statements made per instruction. `EncodeLength`: the encoder writes as many bytes as the length formula of
spec/30_encoding.md R62 counts. -/

namespace Sys2Proof.Laws

theorem length_tail (o : Operand) : o.tail.length = o.extraBytes := by
  cases o with
  | reg r => rfl
  | mem m =>
    cases m with
    | abs32 d => simp [Operand.tail, Operand.extraBytes, MemOperand.sibBytes, MemOperand.dispBytes, length_leBytes]
    | abs16 d => simp [Operand.tail, Operand.extraBytes, MemOperand.sibBytes, MemOperand.dispBytes, length_leBytes]
    | sibNoBase sc x d =>
      simp [Operand.tail, Operand.extraBytes, MemOperand.sibBytes, MemOperand.dispBytes, length_leBytes]
    | base32 b d => cases d <;> simp [Operand.tail, Operand.extraBytes, MemOperand.sibBytes, MemOperand.dispBytes,
        Disp32.bytes, Disp32.encode, length_leBytes]
    | sib sc x b d => cases d <;> simp [Operand.tail, Operand.extraBytes, MemOperand.sibBytes, MemOperand.dispBytes,
        Disp32.bytes, Disp32.encode, length_leBytes]
    | base16 r d => cases d <;> simp [Operand.tail, Operand.extraBytes, MemOperand.sibBytes, MemOperand.dispBytes,
        Disp16.bytes, Disp16.encode, length_leBytes]

/-- The encoder writes `length` bytes (R62). -/
def EncodeLength.Statement (i : Instr) : Prop := (encode i).length = i.length

theorem EncodeLength.of_tail (i : Instr) : EncodeLength.Statement i := by
  simp only [EncodeLength.Statement, encode, Instr.length, instrLength, List.length_append, List.length_map,
    List.length_cons, length_tail]
  omega

theorem EncodeLength.pcmpeqbMm (ps : List Prefix) (d : RegNum) (o : Operand) :
    EncodeLength.Statement (.pcmpeqbMm ps d o) := EncodeLength.of_tail _

theorem EncodeLength.pcmpeqbXmm (ps : List Prefix) (d : RegNum) (o : Operand) :
    EncodeLength.Statement (.pcmpeqbXmm ps d o) := EncodeLength.of_tail _

theorem EncodeLength.pcmpeqwMm (ps : List Prefix) (d : RegNum) (o : Operand) :
    EncodeLength.Statement (.pcmpeqwMm ps d o) := EncodeLength.of_tail _

theorem EncodeLength.pcmpeqwXmm (ps : List Prefix) (d : RegNum) (o : Operand) :
    EncodeLength.Statement (.pcmpeqwXmm ps d o) := EncodeLength.of_tail _

theorem EncodeLength.pcmpeqdMm (ps : List Prefix) (d : RegNum) (o : Operand) :
    EncodeLength.Statement (.pcmpeqdMm ps d o) := EncodeLength.of_tail _

theorem EncodeLength.pcmpeqdXmm (ps : List Prefix) (d : RegNum) (o : Operand) :
    EncodeLength.Statement (.pcmpeqdXmm ps d o) := EncodeLength.of_tail _

end Sys2Proof.Laws
end

