-- ==== Sys2Proof/Tests/Slice0.lean ====
section
/-! SUPPORT. The model's own tests: ill-formed terms that WellFormed refuses, encodings and vectors of spec/95_test_vectors.md,
and for every statement with hypotheses a state and operands that meet them, at the boundaries of its clauses. -/

namespace Sys2Proof.Tests

open Sys2Proof Sys2Proof.Machine

/-! ### Outcomes as Booleans -/

/-- A next state that satisfies a test. -/
def nextWith {α : Type} (o : Result α) (p : α → Bool) : Bool :=
  match o with
  | .next v => p v
  | .fault _ | .refused _ => false

/-- This fault. -/
def faultIs {α : Type} (o : Result α) (e : Fault) : Bool :=
  match o with
  | .fault f => f == e
  | .next _ | .refused _ => false

/-- This refusal. -/
def refusalIs {α : Type} (o : Result α) (r : Refusal) : Bool :=
  match o with
  | .refused q => q == r
  | .next _ | .fault _ => false

theorem exists_next {α : Type} {o : Result α} (h : nextWith o (fun _ => true) = true) : ∃ v, o = .next v := by
  cases o with
  | next v => exact ⟨v, rfl⟩
  | fault e => simp [nextWith] at h
  | refused r => simp [nextWith] at h

theorem eq_fault {α : Type} {o : Result α} {e : Fault} (h : faultIs o e = true) : o = .fault e := by
  cases o with
  | next v => simp [faultIs] at h
  | fault f => simpa [faultIs] using h
  | refused r => simp [faultIs] at h

theorem eq_refused {α : Type} {o : Result α} {r : Refusal} (h : refusalIs o r = true) : o = .refused r := by
  cases o with
  | next v => simp [refusalIs] at h
  | fault f => simp [refusalIs] at h
  | refused q => simpa [refusalIs] using h

/-- These bytes stand where the fetch reads them. -/
def fetches (s : State) (bs : List Byte) : Bool :=
  (List.range bs.length).all fun k => nextWith (fetchByte s k) fun b => bs[k]? == some b

theorem fetched {s : State} {bs : List Byte} (h : fetches s bs = true) (k : Nat) (hk : k < bs.length) :
    fetchByte s k = .next bs[k] := by
  simp only [fetches, List.all_eq_true, List.mem_range] at h
  have at_k := h k hk
  cases e : fetchByte s k with
  | next b => simp [e, nextWith, List.getElem?_eq_getElem hk] at at_k; rw [at_k]
  | fault f => simp [e, nextWith] at at_k
  | refused r => simp [e, nextWith] at at_k

/-! ### States -/

/-- A segment at a base, with the offsets 0 to `last` inside. -/
def seg (base last : Word32) : Segment := { selector := 0#16, base := base, inside := [⟨0#32, last⟩], usable := true }

/-- Memory 0x2000 to 0x200F holding 0x10 to 0x1F (95_test_vectors.md 2.4). -/
def sixteen : Memory := (List.range 16).map fun k => (0x2000 + k, BitVec.ofNat 8 (0x10 + k))

/-- The launch state of 95_test_vectors.md: Protected mode, 32-bit code, flat segments, the registers of 2.3. -/
def flat : State :=
  { State.reset with
    gpr := #v[0x2000#32, 4#32, 0#32, 0x2000#32, 0x2000#32, 0x1FF0#32, 0#32, 0#32]
    eip := 0x1000#32, segs := Vector.replicate 6 Segment.flat, cr4OSFXSR := true, mode := .protectedMode
    mem := sixteen, plat := Platform.byDefault .a32 }

/-- The state with offsets 0 to 0xFFF inside every segment and EBX and EBP at an offset (95_test_vectors.md 2.5). -/
def small (ea : Word32) : State :=
  { flat with segs := Vector.replicate 6 (seg 0#32 0xFFF#32), eip := 0x100#32
              gpr := #v[0#32, 0#32, 0#32, ea, 0#32, ea, 0#32, 0#32] }

/-- The launch state of program 4 (95_test_vectors.md Part 3), Real mode. -/
def real : State :=
  { flat with
    mode := .realMode, eip := 0x100#32, plat := Platform.reset
    gpr := #v[0#32, 0#32, 0#32, 0x12340000#32, 0#32, 0#32, 8#32, 0#32]
    segs := #v[seg 0#32 0xFFFF#32, { seg 0#32 0xFFFF#32 with selector := 0x1000#16 }, seg 0#32 0xFFFF#32,
      { seg 0#32 0xFFFF#32 with selector := 0x0200#16 }, seg 0#32 0xFFFF#32, seg 0#32 0xFFFF#32] }

/-- The flat state with EBX at an offset. -/
def atEbx (ea : Word32) : State := { flat with gpr := flat.gpr.set 3 ea }

/-- The flat state with the page at linear 0x3000 not present for data and the page at 0x1000 not present for fetches. -/
def paged : State :=
  { atEbx 0x2FF9#32 with
    plat := { flat.plat with
      pageMap := [⟨0x3000#32, 0x3FFF#32, .dataRead, .pageFault 4⟩, ⟨0x1000#32, 0x1FFF#32, .fetch, .pageFault 20⟩] } }

/-- The state with every segment at a base of 8. -/
def base8 : State := { flat with segs := Vector.replicate 6 (seg 8#32 0xFFFFFFFF#32) }

/-- The state with instruction bytes placed at `EIP`. -/
def withCode (s : State) (bs : List Byte) : State := { s with mem := placeBytes s 0 bs s.mem }

/-- The state with an `mm` register set. -/
def withMM (s : State) (r : RegNum) (v : Word64) : State := s.writeMM r v

/-- The state with an `xmm` register set. -/
def withXMM (s : State) (r : RegNum) (v : Word128) : State := s.writeXMM r v

/-- `[ebx]`. -/
def ebx : Operand := .mem (.base32 3 .none)

/-- `[ebp+0]`. -/
def ebp0 : Operand := .mem (.base32 5 (.d8 0#8))

/-! ### WellFormed refuses an ill-formed term, one for each check -/

theorem test_wf_refuses_repeated_prefix : Instr.wf .a32 (.pcmpeqbXmm [.opSize, .opSize] 0 (.reg 1)) = false := by decide

theorem test_wf_refuses_repeated_address_prefix :
    Instr.wf .a32 (.pcmpeqbMm [.addrSize, .addrSize] 0 (.reg 1)) = false := by decide

theorem test_wf_refuses_two_segment_prefixes :
    Instr.wf .a32 (.pcmpeqbMm [.seg .es, .seg .cs] 0 (.reg 1)) = false := by decide

theorem test_wf_refuses_operand_prefix_in_mm_row : Instr.wf .a32 (.pcmpeqwMm [.opSize] 0 (.reg 1)) = false := by decide

theorem test_wf_refuses_xmm_row_without_operand_prefix : Instr.wf .a32 (.pcmpeqwXmm [] 0 (.reg 1)) = false := by decide

theorem test_wf_refuses_form_of_other_address_size :
    Instr.wf .a32 (.pcmpeqdMm [] 0 (.mem (.abs16 0#16))) = false ∧
      Instr.wf .a32 (.pcmpeqdMm [.addrSize] 0 (.mem (.abs32 0#32))) = false := by decide

theorem test_wf_refuses_base_without_encoding :
    MemOperand.wf (.base32 4 (.d8 0#8)) = false ∧ MemOperand.wf (.base32 5 .none) = false ∧
      MemOperand.wf (.base16 6 .none) = false := by decide

theorem test_wf_refuses_sib_without_encoding :
    MemOperand.wf (.sib 0 (some 4) 0 .none) = false ∧ MemOperand.wf (.sib 0 (some 1) 5 .none) = false ∧
      MemOperand.wf (.sibNoBase 0 (some 4) 0#32) = false := by decide

/-! ### Decoding, words written out from the encodings (95_test_vectors.md 2.3) -/

theorem test_decode_pcmpeqbMm : decode .a32 [0x0F#8, 0x74#8, 0xC1#8] = .ok (.pcmpeqbMm [] 0 (.reg 1)) [] := by decide

theorem test_decode_pcmpeqbMm_ebp :
    decode .a32 [0x0F#8, 0x74#8, 0x45#8, 0#8] = .ok (.pcmpeqbMm [] 0 (.mem (.base32 5 (.d8 0#8)))) [] := by decide

theorem test_decode_pcmpeqwMm : decode .a32 [0x0F#8, 0x75#8, 0xC8#8] = .ok (.pcmpeqwMm [] 1 (.reg 0)) [] := by decide

theorem test_decode_pcmpeqwMm_ss :
    decode .a32 [0x36#8, 0x0F#8, 0x75#8, 0x03#8] = .ok (.pcmpeqwMm [.seg .ss] 0 (.mem (.base32 3 .none))) [] := by decide

theorem test_decode_pcmpeqdMm : decode .a32 [0x0F#8, 0x76#8, 0xFF#8] = .ok (.pcmpeqdMm [] 7 (.reg 7)) [] := by decide

theorem test_decode_pcmpeqdMm_sib_no_base :
    decode .a32 [0x0F#8, 0x76#8, 0x04#8, 0xCD#8, 0x00#8, 0x20#8, 0#8, 0#8]
      = .ok (.pcmpeqdMm [] 0 (.mem (.sibNoBase 3 (some 1) 0x2000#32))) [] := by decide

theorem test_decode_pcmpeqbXmm :
    decode .a32 [0x66#8, 0x0F#8, 0x74#8, 0x04#8, 0x24#8] = .ok (.pcmpeqbXmm [.opSize] 0 (.mem (.sib 0 none 4 .none))) [] := by
  decide

theorem test_decode_pcmpeqbXmm_address_prefix :
    decode .a32 [0x66#8, 0x67#8, 0x0F#8, 0x74#8, 0x47#8, 0xF8#8]
      = .ok (.pcmpeqbXmm [.opSize, .addrSize] 0 (.mem (.base16 7 (.d8 0xF8#8)))) [] := by decide

theorem test_decode_pcmpeqwXmm :
    decode .a32 [0x66#8, 0x0F#8, 0x75#8, 0x0B#8] = .ok (.pcmpeqwXmm [.opSize] 1 (.mem (.base32 3 .none))) [] := by decide

theorem test_decode_pcmpeqdXmm :
    decode .a32 [0x66#8, 0x0F#8, 0x76#8, 0x54#8, 0x8B#8, 0xF0#8]
      = .ok (.pcmpeqdXmm [.opSize] 2 (.mem (.sib 2 (some 1) 3 (.d8 0xF0#8)))) [] := by decide

theorem test_decode_refuses_prefixes :
    decode .a32 [0xF0#8, 0x0F#8, 0x74#8, 0xC1#8] = .bad .prefixNotAdmitted ∧
      decode .a32 [0xF3#8, 0x0F#8, 0x74#8, 0xC1#8] = .bad .prefixNotAdmitted ∧
      decode .a32 [0xF2#8, 0x0F#8, 0x74#8, 0xC1#8] = .bad .prefixNotAdmitted ∧
      decode .a32 [0x66#8, 0x66#8, 0x0F#8, 0x74#8, 0xC1#8] = .bad .prefixNotAdmitted ∧
      decode .a32 [0x26#8, 0x2E#8, 0x0F#8, 0x74#8, 0x03#8] = .bad .prefixNotAdmitted := by decide

theorem test_decode_refuses_opcodes :
    decode .a32 [0x0F#8, 0x77#8] = .bad .notInScope ∧ decode .a32 [0x0F#8, 0x73#8, 0xC1#8] = .bad .notInScope := by decide

/-- The effective addresses and segments of 95_test_vectors.md 2.3, rows 9, 10, 11, 14. -/
theorem test_effective_addresses :
    effectiveAddress flat (.sib 2 (some 1) 3 (.d8 0xF0#8)) = 0x2000#32 ∧
      effectiveAddress flat (.base32 5 (.d8 0x10#8)) = 0x2000#32 ∧ defaultSegment (.base32 5 (.d8 0x10#8)) = .ss ∧
      effectiveAddress flat (.sib 0 none 4 .none) = 0x2000#32 ∧ defaultSegment (.sib 0 none 4 .none) = .ss ∧
      effectiveAddress (atEbx 0x2008#32) (.base16 7 (.d8 0xF8#8)) = 0x2000#32 := by decide

/-- The wrap of 95_test_vectors.md 2.6, row 6: BX = 0xFFFC, SI = 0x000C. -/
theorem test_effective_address_16_wraps :
    effectiveAddress { flat with gpr := #v[0#32, 0#32, 0#32, 0xFFFC#32, 0#32, 0#32, 0xC#32, 0#32] } (.base16 0 .none)
      = 8#32 := by decide

/-! ### The lane function (95_test_vectors.md 2.1 and 2.2) -/

theorem test_lanes_64 :
    pcmpeq .byte 0x0123456789ABCDEF#64 0x01FF45FF89FFCDFF#64 = 0xFF00FF00FF00FF00#64 ∧
      pcmpeq .byte 0x00000000FFFFFFFF#64 0x000000FF00FFFFFF#64 = 0xFFFFFF0000FFFFFF#64 ∧
      pcmpeq .word 0x00000000FFFFFFFF#64 0x000000FF00FFFFFF#64 = 0xFFFF00000000FFFF#64 ∧
      pcmpeq .dword 0x00000000FFFFFFFF#64 0x000000FF00FFFFFF#64 = 0#64 ∧
      pcmpeq .dword 0x8000000000000001#64 1#64 = 0x00000000FFFFFFFF#64 := by decide

theorem test_lanes_128 :
    pcmpeq .byte 0x00010002000300040005000600070008#128 0x00010002FFFF00040005FFFF00070009#128
        = 0xFFFFFFFF0000FFFFFFFF0000FFFFFF00#128 ∧
      pcmpeq .word 0x00010002000300040005000600070008#128 0x00010002FFFF00040005FFFF00070009#128
        = 0xFFFFFFFF0000FFFFFFFF0000FFFF0000#128 ∧
      pcmpeq .dword 0x00010002000300040005000600070008#128 0x00010002FFFF00040005FFFF00070009#128
        = 0xFFFFFFFF000000000000000000000000#128 := by decide

/-! ### One step of each form -/

/-- 95_test_vectors.md 2.4. -/
theorem test_step_pcmpeqbMm :
    nextWith (step (withCode (withMM flat 0 0x17FF15FF13FF11FF#64) [0x0F#8, 0x74#8, 0x03#8]))
      (fun t => t.readMM 0 == 0xFF00FF00FF00FF00#64 && t.eip == 0x1003#32) = true := by decide

/-- 95_test_vectors.md 2.5, `[ebp+0]` at 0xFF8 and at 0xFF9. -/
theorem test_step_pcmpeqbMm_limit :
    nextWith (step (withCode (small 0xFF8#32) [0x0F#8, 0x74#8, 0x45#8, 0#8])) (fun t => t.eip == 0x104#32) = true ∧
      faultIs (step (withCode (small 0xFF9#32) [0x0F#8, 0x74#8, 0x45#8, 0#8])) .ss = true := by decide

/-- 95_test_vectors.md Part 3, program 1, second instruction. -/
theorem test_step_pcmpeqwMm :
    nextWith (step (withCode (withMM (withMM flat 0 0xFFFFFFFFFFFFFFFF#64) 1 0xFFFF0000FFFF1234#64)
        [0x0F#8, 0x75#8, 0xC8#8]))
      (fun t => t.readMM 1 == 0xFFFF0000FFFF0000#64 && t.readMM 0 == 0xFFFFFFFFFFFFFFFF#64) = true := by decide

/-- 95_test_vectors.md Part 3, program 4, first instruction. -/
theorem test_step_pcmpeqwMm_real :
    nextWith (step (withCode (withMM real 0 0x1F1E00001B1A1918#64) [0x0F#8, 0x75#8, 0x00#8]))
      (fun t => t.readMM 0 == 0xFFFF0000FFFFFFFF#64 && t.eip == 0x103#32) = true := by decide

/-- 95_test_vectors.md Part 3, program 1, third instruction. -/
theorem test_step_pcmpeqdMm :
    nextWith (step (withCode (withMM (withMM flat 1 0xFFFF0000FFFF0000#64) 2 0xFFFF000012345678#64)
        [0x0F#8, 0x76#8, 0xD1#8])) (fun t => t.readMM 2 == 0xFFFFFFFF00000000#64) = true := by decide

/-- 95_test_vectors.md Part 3, program 4, third instruction. -/
theorem test_step_pcmpeqdMm_real_limit :
    faultIs (step (withCode real [0x0F#8, 0x76#8, 0x06#8, 0xF9#8, 0xFF#8])) .gp = true := by decide

/-- 95_test_vectors.md Part 3, program 2, first instruction. -/
theorem test_step_pcmpeqbXmm :
    nextWith (step (withCode (withXMM flat 0 0x1F1E1D1D1B1A19181716EA1413121110#128)
        [0x66#8, 0x0F#8, 0x74#8, 0x05#8, 0x00#8, 0x20#8, 0#8, 0#8]))
      (fun t => t.readXMM 0 == 0xFFFFFF00FFFFFFFFFFFF00FFFFFFFFFF#128 && t.eip == 0x1008#32) = true := by decide

/-- 95_test_vectors.md 2.8. -/
theorem test_step_pcmpeqbXmm_without_sse2 :
    nextWith (step (withCode { withMM (withMM (withXMM flat 0 7#128) 0 0x0123456789ABCDEF#64) 1 0x01FF45FF89FFCDFF#64 with
        cr4OSFXSR := false, plat := { flat.plat with hasSSE2 := false } } [0x66#8, 0x0F#8, 0x74#8, 0xC1#8]))
      (fun t => t.readMM 0 == 0xFF00FF00FF00FF00#64 && t.readXMM 0 == 7#128 && t.eip == 0x1004#32) = true := by decide

/-- 95_test_vectors.md Part 3, program 2, second instruction. -/
theorem test_step_pcmpeqwXmm :
    nextWith (step (withCode (withXMM flat 1 0x1F1E1D1C00000000171615141312FFFF#128) [0x66#8, 0x0F#8, 0x75#8, 0x0B#8]))
      (fun t => t.readXMM 1 == 0xFFFFFFFF00000000FFFFFFFFFFFF0000#128) = true := by decide

/-- 95_test_vectors.md 2.9, third row: the same register twice. -/
theorem test_step_pcmpeqwXmm_same_register :
    nextWith (step (withCode (withXMM flat 3 0xDEADBEEF#128) [0x66#8, 0x0F#8, 0x75#8, 0xDB#8]))
      (fun t => t.readXMM 3 == 0xFFFFFFFFFFFFFFFFFFFFFFFFFFFFFFFF#128) = true := by decide

/-- 95_test_vectors.md Part 3, program 2, third instruction: SIB addressing. -/
theorem test_step_pcmpeqdXmm :
    nextWith (step (withCode (withXMM flat 2 0x1F1E1D1C00000000171615141312FFFF#128)
        [0x66#8, 0x0F#8, 0x76#8, 0x54#8, 0x8B#8, 0xF0#8]))
      (fun t => t.readXMM 2 == 0xFFFFFFFF00000000FFFFFFFF00000000#128) = true := by decide

/-- 95_test_vectors.md 2.5: a misaligned 128-bit operand. -/
theorem test_step_pcmpeqdXmm_misaligned :
    faultIs (step (withCode (small 0xFF1#32) [0x66#8, 0x0F#8, 0x76#8, 0x03#8])) .gp = true := by decide

/-- The state of one row of 95_test_vectors.md 2.7. -/
def control (em ts osfxsr x87 : Bool) : State :=
  { flat with cr0EM := em, cr0TS := ts, cr4OSFXSR := osfxsr, x87Pending := x87 }

/-- 95_test_vectors.md 2.7, the 64-bit form: `none` completes. -/
theorem test_control_table_64 :
    controlTests64 (control false false true false) = none ∧ controlTests64 (control true false true false) = some .ud ∧
      controlTests64 (control false true true false) = some .nm ∧ controlTests64 (control true true true false) = some .ud ∧
      controlTests64 (control false false false false) = none ∧ controlTests64 (control false true false false) = some .nm ∧
      controlTests64 (control false false true true) = some .mf ∧ controlTests64 (control false true true true) = some .nm ∧
      controlTests64 (control true false false true) = some .ud := by decide

/-- 95_test_vectors.md 2.7, the 128-bit form. -/
theorem test_control_table_128 :
    controlTests128 (control false false true false) = none ∧ controlTests128 (control true false true false) = some .ud ∧
      controlTests128 (control false true true false) = some .nm ∧ controlTests128 (control true true true false) = some .ud ∧
      controlTests128 (control false false false false) = some .ud ∧
      controlTests128 (control false true false false) = some .ud ∧
      controlTests128 (control false false true true) = none ∧ controlTests128 (control false true true true) = some .nm ∧
      controlTests128 (control true false false true) = some .ud := by decide

/-! ### Witnesses: encoding and decoding -/

theorem witness_EncodeThenDecodeGivesTheInstruction :
    Instr.wf .a16 (.pcmpeqdXmm [.seg .gs, .opSize, .addrSize] 7 (.mem (.sib 3 (some 7) 7 (.d32 0xFFFFFFFF#32)))) = true ∧
      Instr.wf .a32 (.pcmpeqbMm [.addrSize] 0 (.mem (.base16 6 (.d8 0x80#8)))) = true := by decide

theorem witness_DecodeThenEncodeGivesTheBytes :
    decode .a32 [0x65#8, 0x66#8, 0x0F#8, 0x75#8, 0x80#8, 1#8, 2#8, 3#8, 4#8, 0x90#8]
      = .ok (.pcmpeqwXmm [.seg .gs, .opSize] 0 (.mem (.base32 0 (.d32 0x04030201#32)))) [0x90#8] := by decide

theorem witness_DecodedLengthFollowsTheFormula :
    decode .a16 [0x65#8, 0x66#8, 0x67#8, 0x0F#8, 0x75#8, 0x84#8, 0x00#8, 1#8, 2#8, 3#8, 4#8]
      = .ok (.pcmpeqwXmm [.seg .gs, .opSize, .addrSize] 0 (.mem (.sib 0 (some 0) 0 (.d32 0x04030201#32)))) [] := by decide

/-- Each clause: LOCK and both repeat prefixes are values of `b`; a repeated prefix; a second segment prefix. -/
theorem witness_RefusedPrefixesAreRefused :
    prefixesAdmitted [] [.opSize, .seg .es] = true ∧
      Prefix.opSize ∈ [Prefix.opSize, .seg .es] ∧
      (∃ r q, Prefix.seg .cs = .seg r ∧ Prefix.seg q ∈ [Prefix.opSize, .seg .es]) :=
  ⟨by decide, by decide, .cs, .es, rfl, by decide⟩

theorem witness_OtherOpcodesAreNotInScope :
    prefixesAdmitted [] [.addrSize] = true ∧ (∀ p, (0x90#8 : Byte) ≠ Prefix.toByte p) ∧
      (0x90#8 : Byte) ≠ 0xF0#8 ∧ (0x90#8 : Byte) ≠ 0xF2#8 ∧ (0x90#8 : Byte) ≠ 0xF3#8 ∧ (0x90#8 : Byte) ≠ 0x0F#8 ∧
      (0x77#8 : Byte) ≠ 0x74#8 ∧ (0x77#8 : Byte) ≠ 0x75#8 ∧ (0x77#8 : Byte) ≠ 0x76#8 := by
  refine ⟨by decide, fun p => ?_, by decide⟩
  rcases p with _ | _ | r
  · decide
  · decide
  · cases r <;> decide

theorem witness_EveryModRMDecodesForEveryRow :
    prefixesAdmitted [] [.opSize, .addrSize, .seg .fs] = true ∧ 5 ≤ ([1#8, 2#8, 3#8, 4#8, 5#8] : List Byte).length := by
  decide

/-! ### Witnesses: addresses and segments -/

/-- Under both address sizes, and each row of the tables at `rm` 4 and 5. -/
theorem witness_EffectiveAddress32FollowsTheTables :
    takeMem .a32 0 4 [0x24#8] = .ok (.sib 0 none 4 .none) [] ∧ takeMem .a16 0 4 [] = .ok (.base16 4 .none) [] ∧
      takeMem .a32 0 5 [0#8, 0x20#8, 0#8, 0#8] = .ok (.abs32 0x2000#32) [] ∧
      takeMem .a32 1 5 [0x10#8] = .ok (.base32 5 (.d8 0x10#8)) [] := by decide

/-- A segment prefix; no prefix with SS and with DS, the boundary being `mod` 0 with EBP's number. -/
theorem witness_OperandSegmentFollowsTheRule :
    takeMem .a32 1 5 [0x10#8] = .ok (.base32 5 (.d8 0x10#8)) [] ∧ takeMem .a32 0 5 [0#8, 0#8, 0#8, 0#8] = .ok (.abs32 0#32) [] ∧
      takeMem .a32 0 4 [0x25#8, 0#8, 0#8, 0#8, 0#8] = .ok (.sibNoBase 0 none 0#32) [] ∧
      takeMem .a16 0 6 [0#8, 0#8] = .ok (.abs16 0#16) [] ∧
      prefixesAdmitted [] [.opSize, .seg .gs] = true ∧ Prefix.seg .gs ∈ [Prefix.opSize, .seg .gs] ∧
      prefixesAdmitted [] [.opSize] = true ∧ (∀ r, Prefix.seg r ∉ [Prefix.opSize]) := by
  refine ⟨by decide, by decide, by decide, by decide, by decide, by decide, by decide, fun r => ?_⟩
  cases r <;> decide

/-- Real mode and Protected mode, with and without 0x67. -/
theorem witness_AddressSizeFollowsModeAndPrefix :
    real.mode ≠ .protectedMode ∧
      decode real.defaultAddrSize [0x67#8, 0x0F#8, 0x74#8, 0x0B#8]
        = .ok (.pcmpeqbMm [.addrSize] 1 (.mem (.base32 3 .none))) [] ∧
      decode real.defaultAddrSize [0x0F#8, 0x74#8, 0x0F#8] = .ok (.pcmpeqbMm [] 1 (.mem (.base16 7 .none))) [] ∧
      flat.mode = .protectedMode ∧
      decode flat.defaultAddrSize [0x0F#8, 0x74#8, 0x0B#8] = .ok (.pcmpeqbMm [] 1 (.mem (.base32 3 .none))) [] ∧
      decode flat.defaultAddrSize [0x67#8, 0x0F#8, 0x74#8, 0x0F#8]
        = .ok (.pcmpeqbMm [.addrSize] 1 (.mem (.base16 7 .none))) [] := by decide

/-! ### Witnesses: steps -/

theorem witness_StepRunsTheDecodedInstruction :
    (∀ k (h : k < ([0x0F#8, 0x74#8, 0xC1#8] : List Byte).length),
      fetchByte (withCode flat [0x0F#8, 0x74#8, 0xC1#8]) k = .next ([0x0F#8, 0x74#8, 0xC1#8] : List Byte)[k]) ∧
      decode (withCode flat [0x0F#8, 0x74#8, 0xC1#8]).defaultAddrSize [0x0F#8, 0x74#8, 0xC1#8]
        = .ok (.pcmpeqbMm [] 0 (.reg 1)) [] := ⟨fetched (by decide), by decide⟩

/-- FetchWrap in Real mode: the third byte would stand at offset 0x10000. -/
theorem witness_UnfetchableInstructionIsRefused_wrap :
    (∀ k (h : k < ([0x0F#8, 0x74#8] : List Byte).length),
      fetchByte (withCode { real with eip := 0xFFFE#32 } [0x0F#8, 0x74#8]) k = .next ([0x0F#8, 0x74#8] : List Byte)[k]) ∧
      decode (withCode { real with eip := 0xFFFE#32 } [0x0F#8, 0x74#8]).defaultAddrSize [0x0F#8, 0x74#8] = .bad .truncated ∧
      real.offsetTop < (0xFFFE#32 : Word32).toNat + 2 := ⟨fetched (by decide), by decide, by decide⟩

/-- FetchFault by the limit 0xFFF of CS in Protected mode. -/
theorem witness_UnfetchableInstructionIsRefused_limit :
    (∀ k (h : k < ([0x0F#8, 0x74#8] : List Byte).length),
      fetchByte (withCode { small 0#32 with eip := 0xFFE#32 } [0x0F#8, 0x74#8]) k
        = .next ([0x0F#8, 0x74#8] : List Byte)[k]) ∧
      decode (withCode { small 0#32 with eip := 0xFFE#32 } [0x0F#8, 0x74#8]).defaultAddrSize [0x0F#8, 0x74#8]
        = .bad .truncated ∧
      0xFFE + 2 ≤ (small 0#32).offsetTop ∧ ((small 0#32).segment .cs).holds (0xFFE + 2) = false :=
  ⟨fetched (by decide), by decide, by decide, by decide⟩

/-- FetchFault by a page fault on the first byte. -/
theorem witness_UnfetchableInstructionIsRefused_page :
    (∀ k (h : k < ([] : List Byte).length), fetchByte paged k = .next ([] : List Byte)[k]) ∧
      decode paged.defaultAddrSize [] = .bad .truncated ∧ paged.eip.toNat + 0 ≤ paged.offsetTop ∧
      (∃ code, paged.translate (paged.segBase .cs + paged.eip + BitVec.ofNat 32 0) .fetch = .pageFault code) :=
  ⟨fun _ h => absurd h (by simp), by decide, by decide, 20, by decide⟩

theorem witness_UndecodableBytesAreRefused :
    (∀ k (h : k < ([0xF0#8] : List Byte).length), fetchByte (withCode flat [0xF0#8]) k = .next ([0xF0#8] : List Byte)[k]) ∧
      decode (withCode flat [0xF0#8]).defaultAddrSize [0xF0#8] = .bad .prefixNotAdmitted ∧
      (∀ k (h : k < ([0x90#8] : List Byte).length), fetchByte (withCode flat [0x90#8]) k = .next ([0x90#8] : List Byte)[k]) ∧
      decode (withCode flat [0x90#8]).defaultAddrSize [0x90#8] = .bad .notInScope :=
  ⟨fetched (by decide), by decide, fetched (by decide), by decide⟩

theorem witness_PlacedTableWordRunsAfterReset :
    16 ≤ 88 ∧ decodeTableWord 16 0x0F74 = some (.pcmpeqbMm [] 0 (.mem (.base16 0 .none))) ∧
      decodeTableWord 88 0x656667_0F75_84_00_01020304
        = some (.pcmpeqwXmm [.seg .gs, .opSize, .addrSize] 0 (.mem (.sib 0 (some 0) 0 (.d32 0x04030201#32)))) := by decide

/-! ### Witnesses: lanes (the last lane of each width; two different pairs that agree in one lane) -/

theorem witness_ComparesLaneByLane :
    7 < 64 / LaneWidth.byte.bits ∧ 1 < 64 / LaneWidth.dword.bits ∧ 15 < 128 / LaneWidth.byte.bits ∧
      laneAt 8 15 (1#128) = laneAt 8 15 (2#128) ∧ laneAt 8 15 (3#128) = laneAt 8 15 (4#128) := by decide

theorem witness_LaneFunctionLaws : (64 = 64 ∨ 64 = 128) ∧ 7 < 64 / LaneWidth.byte.bits ∧ 3 < 128 / LaneWidth.dword.bits := by
  decide

theorem witness_WiderLaneNeedsBothHalves : (128 = 64 ∨ 128 = 128) ∧ 7 < 128 / 16 ∧ 1 < 64 / 32 := by decide

/-! ### Witnesses: completion -/

/-- Every one of the six forms, with a register and with a memory source, meets the conditions of completion. -/
theorem witness_FormsComplete (w : LaneWidth) (wide : Bool) (src : Operand) (h : src = .reg 1 ∨ src = ebx) :
    wideOp flat (Instr.form w wide (if wide then [.opSize] else []) 0 src) = wide ∧
      ControlReady flat (Instr.form w wide (if wide then [.opSize] else []) 0 src) ∧
      SourceReadable flat (Instr.form w wide (if wide then [.opSize] else []) 0 src) ∧
      RoomAhead flat (Instr.form w wide (if wide then [.opSize] else []) 0 src) := by
  have readable8 : OperandReadable flat .ds (effectiveAddress flat (.base32 3 .none)) 8 :=
    ⟨by decide, (by decide : ∀ k < 8, (flat.segment .ds).holds (0x2000 + k) = true), by decide, by decide,
      fun k _ => ⟨_, rfl⟩⟩
  have readable16 : OperandReadable flat .ds (effectiveAddress flat (.base32 3 .none)) 16 :=
    ⟨by decide, (by decide : ∀ k < 16, (flat.segment .ds).holds (0x2000 + k) = true), by decide, by decide,
      fun k _ => ⟨_, rfl⟩⟩
  rcases h with rfl | rfl <;> cases w <;> cases wide <;>
    first
    | exact ⟨rfl, ⟨rfl, rfl, rfl, fun _ => rfl, fun _ => rfl⟩, trivial, by unfold RoomAhead; decide⟩
    | exact ⟨rfl, ⟨rfl, rfl, rfl, fun _ => rfl, fun _ => rfl⟩, readable8, by unfold RoomAhead; decide⟩
    | exact ⟨rfl, ⟨rfl, rfl, rfl, fun _ => rfl, fun _ => rfl⟩, readable16, by unfold RoomAhead; decide⟩

/-- The boundary: the last byte of the operand at the limit 0xFFF, and `EIP` after it at the top of the offset space. -/
theorem witness_SixtyFourBitFormsComplete_boundary :
    SourceReadable (small 0xFF8#32) (.pcmpeqbMm [] 0 ebx) ∧
      RoomAhead { flat with eip := 0xFFFFFFFC#32 } (.pcmpeqbMm [] 0 (.reg 1)) :=
  ⟨(⟨by decide, (by decide : ∀ k < 8, ((small 0xFF8#32).segment .ds).holds (0xFF8 + k) = true), by decide, by decide,
      fun k _ => ⟨_, rfl⟩⟩ : OperandReadable (small 0xFF8#32) .ds 0xFF8#32 8), by unfold RoomAhead; decide⟩

theorem witness_OneHundredTwentyEightBitFormsComplete_boundary :
    SourceReadable (small 0xFF0#32) (.pcmpeqbXmm [.opSize] 0 ebx) :=
  (⟨by decide, (by decide : ∀ k < 16, ((small 0xFF0#32).segment .ds).holds (0xFF0 + k) = true), by decide, by decide,
    fun k _ => ⟨_, rfl⟩⟩ : OperandReadable (small 0xFF0#32) .ds 0xFF0#32 16)

theorem witness_SameRegisterBecomesAllOnes :
    (ControlReady flat (.pcmpeqbMm [] 3 (.reg 3)) ∧ RoomAhead flat (.pcmpeqbMm [] 3 (.reg 3)) ∧
      wideOp flat (.pcmpeqbMm [] 3 (.reg 3)) = false) ∧
      (ControlReady flat (.pcmpeqdXmm [.opSize] 7 (.reg 7)) ∧ RoomAhead flat (.pcmpeqdXmm [.opSize] 7 (.reg 7)) ∧
        wideOp flat (.pcmpeqdXmm [.opSize] 7 (.reg 7)) = true) :=
  ⟨⟨⟨rfl, rfl, rfl, fun _ => rfl, fun _ => rfl⟩, by unfold RoomAhead; decide, rfl⟩,
    ⟨⟨rfl, rfl, rfl, fun _ => rfl, fun _ => rfl⟩, by unfold RoomAhead; decide, rfl⟩⟩

/-- The flat state on a processor without SSE2. -/
def noSSE2 : State := { flat with cr4OSFXSR := false, plat := { flat.plat with hasSSE2 := false } }

/-- Both values of `hasSSE2`, a pending x87 error and none, a register and a memory source. -/
theorem witness_WithoutSSE2TheWideRowsUseMM :
    Instr.wf .a32 (.pcmpeqbXmm [.opSize] 0 ebx) = true ∧ (Instr.pcmpeqbXmm [.opSize] 0 ebx).wide = true ∧
      flat.plat.hasSSE2 = true ∧ noSSE2.plat.hasSSE2 = false ∧ noSSE2.plat.hasMMX = true ∧ noSSE2.cr0EM = false ∧
      noSSE2.cr0TS = false ∧ noSSE2.x87Pending = false ∧ ({ noSSE2 with x87Pending := true } : State).x87Pending = true ∧
      RoomAhead noSSE2 (.pcmpeqbXmm [.opSize] 0 ebx) ∧
      OperandReadable noSSE2 .ds (effectiveAddress noSSE2 (.base32 3 .none)) 8 :=
  ⟨by decide, rfl, rfl, rfl, rfl, rfl, rfl, rfl, rfl, by unfold RoomAhead; decide, by decide,
    (by decide : ∀ k < 8, (noSSE2.segment .ds).holds (0x2000 + k) = true), by decide, by decide, fun k _ => ⟨_, rfl⟩⟩

/-- A completed instruction, and one that is ready with its successor at the first offset past the top, in both kinds of mode. -/
theorem witness_EipAdvancesByTheLength :
    Instr.wf .a32 (.pcmpeqbMm [] 0 (.reg 1)) = true ∧
      (∃ t, exec (.pcmpeqbMm [] 0 (.reg 1)) { flat with eip := 0xFFFFFFFC#32 } = .next t) ∧
      (ControlReady { flat with eip := 0xFFFFFFFD#32 } (.pcmpeqbMm [] 0 (.reg 1)) ∧
        SourceReadable { flat with eip := 0xFFFFFFFD#32 } (.pcmpeqbMm [] 0 (.reg 1)) ∧ flat.mode = .protectedMode ∧
        0xFFFFFFFF < (0xFFFFFFFD#32 : Word32).toNat + (Instr.pcmpeqbMm [] 0 (.reg 1)).length) ∧
      (ControlReady { real with eip := 0xFFFD#32 } (.pcmpeqbMm [] 0 (.reg 1)) ∧
        SourceReadable { real with eip := 0xFFFD#32 } (.pcmpeqbMm [] 0 (.reg 1)) ∧ real.mode ≠ .protectedMode ∧
        0xFFFF < (0xFFFD#32 : Word32).toNat + (Instr.pcmpeqbMm [] 0 (.reg 1)).length) :=
  ⟨by decide, exists_next (by decide), ⟨⟨rfl, rfl, rfl, fun _ => rfl, fun _ => rfl⟩, trivial, rfl, by decide⟩,
    ⟨rfl, rfl, rfl, fun _ => rfl, fun _ => rfl⟩, trivial, by decide, by decide⟩

/-- Both operand sizes, for the frame and for the two statements about the other register file. -/
theorem witness_CompletedInstructionFrame :
    (wideOp flat (.pcmpeqwMm [] 0 ebx) = false ∧ ∃ t, exec (.pcmpeqwMm [] 0 ebx) flat = .next t) ∧
      (wideOp flat (.pcmpeqwXmm [.opSize] 0 ebx) = true ∧ ∃ t, exec (.pcmpeqwXmm [.opSize] 0 ebx) flat = .next t) :=
  ⟨⟨rfl, exists_next (by decide)⟩, rfl, exists_next (by decide)⟩

/-! ### Witnesses: memory operands -/

theorem witness_MemReadIsLittleEndian : 7 < 8 ∧ 2 * 7 + 1 < 16 ∧ 4 * 3 + 3 < 16 := by decide

/-- A read in Protected mode across the top of the linear address space, and one in Real mode whose last byte is at offset 0xFFFF. -/
theorem witness_OperandReadGivesTheTranslatedBytes :
    (∃ v, readOperand base8 .ds 0xFFFFFFF7#32 8 = .next v) ∧ (∃ v, readOperand real .ds 0xFFF8#32 8 = .next v) ∧
      real.mode = .realMode := ⟨exists_next (by decide), exists_next (by decide), rfl⟩

/-- R35 with the launch of 95_test_vectors.md Part 3, program 4: the linear address of `[bx+si]` is 0x2008; and 2^32 wraps. -/
theorem test_linear_addresses :
    real.linear .ds 8#32 0 = 0x2008#32 ∧ real.linear .cs 0x100#32 0 = 0x10100#32 ∧ base8.linear .ds 0xFFFFFFF7#32 1 = 0#32 := by
  decide

theorem witness_LinearAddressFollowsTheSegmentBase : flat.mode = .protectedMode ∧ real.mode ≠ .protectedMode := by decide

/-- Refused only for EIP, which the default platform does not rule out; and an instruction that completes there. -/
theorem witness_DefaultPlatformIsFlat :
    flat = flat.onDefaultPlatform .a32 ∧ 0 < 16 ∧ 0xFFFFFFF0 + 16 - 1 ≤ 0xFFFFFFFF ∧
      exec (.pcmpeqbMm [] 0 (.reg 1)) ({ flat with eip := 0xFFFFFFFD#32 }.onDefaultPlatform .a32) = .refused .fetchWrap ∧
      ∃ t, exec (.pcmpeqbXmm [.opSize] 0 ebx) (flat.onDefaultPlatform .a32) = .next t :=
  ⟨by decide, by decide, by decide, eq_refused (by decide), exists_next (by decide)⟩

/-- A segment base that is no multiple of 16; an address that is none, the nearest to 0x2000 on both sides. -/
theorem witness_MisalignedWideOperandFaults :
    (ControlReady base8 (.pcmpeqbXmm [.opSize] 0 ebx) ∧ wideOp base8 (.pcmpeqbXmm [.opSize] 0 ebx) = true ∧
      (base8.segment .ds).usable = true ∧ (base8.segBase .ds).toNat % 16 ≠ 0) ∧
      (ControlReady (atEbx 0x2001#32) (.pcmpeqbXmm [.opSize] 0 ebx) ∧
        wideOp (atEbx 0x2001#32) (.pcmpeqbXmm [.opSize] 0 ebx) = true ∧ ((atEbx 0x2001#32).segment .ds).usable = true ∧
        ((atEbx 0x2001#32).segBase .ds).toNat % 16 = 0 ∧
        ((atEbx 0x2001#32).segBase .ds + effectiveAddress (atEbx 0x2001#32) (.base32 3 .none)).toNat % 16 ≠ 0) ∧
      effectiveAddress (atEbx 0x1FFF#32) (.base32 3 .none) = 0x1FFF#32 :=
  ⟨⟨⟨rfl, rfl, rfl, fun _ => rfl, fun _ => rfl⟩, rfl, rfl, by decide⟩,
    ⟨⟨rfl, rfl, rfl, fun _ => rfl, fun _ => rfl⟩, rfl, rfl, by decide, by decide⟩, by decide⟩

/-- The small state with alignment checking on. -/
def checked : State := { small 0x101#32 with plat := { flat.plat with alignmentCheckEnabled := true } }

/-- Alignment checking on, and off with a misaligned operand whose last byte is at the limit. -/
theorem witness_NarrowOperandNeedsNoAlignment :
    (ControlReady checked (.pcmpeqbMm [] 0 ebx) ∧ RoomAhead checked (.pcmpeqbMm [] 0 ebx) ∧
      (checked.segment .ds).usable = true ∧ checked.plat.alignmentCheckEnabled = true ∧
      (effectiveAddress checked (.base32 3 .none)).toNat % 8 ≠ 0) ∧
      (ControlReady (small 0xFF7#32) (.pcmpeqbMm [] 0 ebx) ∧ RoomAhead (small 0xFF7#32) (.pcmpeqbMm [] 0 ebx) ∧
        ((small 0xFF7#32).segment .ds).usable = true ∧ (small 0xFF7#32).plat.alignmentCheckEnabled = false ∧
        InsideLimit (small 0xFF7#32) .ds (effectiveAddress (small 0xFF7#32) (.base32 3 .none)).toNat 8 ∧
        ∀ k < 8, ∃ p, (small 0xFF7#32).translate
          ((small 0xFF7#32).linear .ds (effectiveAddress (small 0xFF7#32) (.base32 3 .none)) k) .dataRead = .phys p) :=
  ⟨⟨⟨rfl, rfl, rfl, fun _ => rfl, fun _ => rfl⟩, by unfold RoomAhead; decide, rfl, rfl, by decide⟩,
    ⟨rfl, rfl, rfl, fun _ => rfl, fun _ => rfl⟩, by unfold RoomAhead; decide, rfl, rfl,
    (by decide : ∀ k < 8, ((small 0xFF7#32).segment .ds).holds (0xFF7 + k) = true), fun k _ => ⟨_, rfl⟩⟩

/-- The flat state with every segment unusable. -/
def unusable : State := { flat with segs := Vector.replicate 6 { seg 0#32 0xFFFFFFFF#32 with usable := false } }

theorem witness_UnusableSegmentAndMissingMMXAreRefused :
    ControlReady unusable (.pcmpeqbMm [] 0 ebx) ∧ (unusable.segment .ds).usable = false ∧
      ({ flat with plat := { flat.plat with hasMMX := false } } : State).plat.hasMMX = false :=
  ⟨⟨rfl, rfl, rfl, fun _ => rfl, fun _ => rfl⟩, rfl, rfl⟩

/-! ### Witnesses: exceptions -/

/-- The hypothesis of the three statements about control exceptions, with each of them raised. -/
theorem witness_ControlExceptions :
    (control true true true true).plat.hasMMX = true ∧
      exec (.pcmpeqbMm [] 0 (.reg 1)) (control true true true true) = .fault .ud ∧
      exec (.pcmpeqbXmm [.opSize] 0 (.reg 1)) (control false true false true) = .fault .ud ∧
      exec (.pcmpeqbXmm [.opSize] 0 (.reg 1)) (control false true true true) = .fault .nm ∧
      exec (.pcmpeqbMm [] 0 (.reg 1)) (control false false false true) = .fault .mf :=
  ⟨rfl, eq_fault (by decide), eq_fault (by decide), eq_fault (by decide), eq_fault (by decide)⟩

/-- The small state in Real mode. -/
def smallReal (ea : Word32) : State := { small ea with mode := .realMode }

/-- The first case of R91: the last byte of an operand in DS is one past the limit in Protected mode. -/
theorem witness_GeneralProtectionCases_limit :
    exec (.pcmpeqbMm [] 0 ebx) (small 0xFF9#32) = .fault .gp ∧ ControlReady (small 0xFF9#32) (.pcmpeqbMm [] 0 ebx) ∧
      operandRefusal (small 0xFF9#32) .ds (effectiveAddress (small 0xFF9#32) (.base32 3 .none)) 8 = none ∧
      (small 0xFF9#32).mode = .protectedMode ∧
      ¬ InsideLimit (small 0xFF9#32) .ds (effectiveAddress (small 0xFF9#32) (.base32 3 .none)).toNat 8 :=
  ⟨eq_fault (by decide), ⟨rfl, rfl, rfl, fun _ => rfl, fun _ => rfl⟩, by decide, rfl,
    (by decide : ¬ ∀ k < 8, ((small 0xFF9#32).segment .ds).holds (0xFF9 + k) = true)⟩

/-- The second case of R91: one byte past 0xFFFF in Real mode; and in SS there too (R92). -/
theorem witness_GeneralProtectionCases_real :
    exec (.pcmpeqbMm [] 0 ebp0) (smallReal 0xFFF9#32) = .fault .gp ∧
      ControlReady (smallReal 0xFFF9#32) (.pcmpeqbMm [] 0 ebp0) ∧
      operandRefusal (smallReal 0xFFF9#32) .ss (effectiveAddress (smallReal 0xFFF9#32) (.base32 5 (.d8 0#8))) 8 = none ∧
      (smallReal 0xFFF9#32).mode ≠ .protectedMode ∧
      0xFFFF < (effectiveAddress (smallReal 0xFFF9#32) (.base32 5 (.d8 0#8))).toNat + 8 - 1 :=
  ⟨eq_fault (by decide), ⟨rfl, rfl, rfl, fun _ => rfl, fun _ => rfl⟩, by decide, by decide, by decide⟩

/-- The third case of R91: a misaligned 128-bit operand, in SS inside the limit. -/
theorem witness_GeneralProtectionCases_misaligned :
    exec (.pcmpeqbXmm [.opSize] 0 ebp0) (small 0x101#32) = .fault .gp ∧
      ControlReady (small 0x101#32) (.pcmpeqbXmm [.opSize] 0 ebp0) ∧
      operandRefusal (small 0x101#32) .ss (effectiveAddress (small 0x101#32) (.base32 5 (.d8 0#8))) 16 = none ∧
      InsideLimit (small 0x101#32) .ss (effectiveAddress (small 0x101#32) (.base32 5 (.d8 0#8))).toNat 16 ∧
      ((small 0x101#32).segBase .ss + effectiveAddress (small 0x101#32) (.base32 5 (.d8 0#8))).toNat % 16 ≠ 0 :=
  ⟨eq_fault (by decide), ⟨rfl, rfl, rfl, fun _ => rfl, fun _ => rfl⟩, by decide,
    (by decide : ∀ k < 16, ((small 0x101#32).segment .ss).holds (0x101 + k) = true), by decide⟩

/-- #SS(0) for a 64-bit operand one byte past the limit, and for an aligned 128-bit one; Real mode is
witness_GeneralProtectionCases_real. -/
theorem witness_StackFaultCases :
    exec (.pcmpeqbMm [] 0 ebp0) (small 0xFF9#32) = .fault .ss ∧
      exec (.pcmpeqbXmm [.opSize] 0 ebp0) (small 0x1000#32) = .fault .ss ∧
      ControlReady (small 0x1000#32) (.pcmpeqbXmm [.opSize] 0 ebp0) ∧
      operandRefusal (small 0x1000#32) .ss (effectiveAddress (small 0x1000#32) (.base32 5 (.d8 0#8))) 16 = none ∧
      ¬ InsideLimit (small 0x1000#32) .ss (effectiveAddress (small 0x1000#32) (.base32 5 (.d8 0#8))).toNat 16 ∧
      ((small 0x1000#32).segBase .ss + effectiveAddress (small 0x1000#32) (.base32 5 (.d8 0#8))).toNat % 16 = 0 :=
  ⟨eq_fault (by decide), eq_fault (by decide), ⟨rfl, rfl, rfl, fun _ => rfl, fun _ => rfl⟩, by decide,
    (by decide : ¬ ∀ k < 16, ((small 0x1000#32).segment .ss).holds (0x1000 + k) = true), by decide⟩

/-- Only the last byte of the operand is on the page that is not present. -/
theorem witness_PageFaultCases :
    exec (.pcmpeqbMm [] 0 ebx) paged = .fault (.pf 4) ∧ ControlReady paged (.pcmpeqbMm [] 0 ebx) ∧
      operandRefusal paged .ds (effectiveAddress paged (.base32 3 .none)) 8 = none ∧
      segmentFault paged .ds (effectiveAddress paged (.base32 3 .none)) 8 = none ∧
      ∃ k < 8, ∃ code,
        paged.translate (paged.linear .ds (effectiveAddress paged (.base32 3 .none)) k) .dataRead = .pageFault code :=
  ⟨eq_fault (by decide), ⟨rfl, rfl, rfl, fun _ => rfl, fun _ => rfl⟩, by decide, by decide, 7, by decide, 4, by decide⟩

/-- In SS and in DS, at the first misaligned address whose last byte is outside. -/
theorem witness_MisalignedAndOutsideRaisesEither :
    ControlReady (small 0xFF1#32) (.pcmpeqbXmm [.opSize] 0 ebp0) ∧
      operandRefusal (small 0xFF1#32) .ss (effectiveAddress (small 0xFF1#32) (.base32 5 (.d8 0#8))) 16 = none ∧
      ¬ InsideLimit (small 0xFF1#32) .ss (effectiveAddress (small 0xFF1#32) (.base32 5 (.d8 0#8))).toNat 16 ∧
      ((small 0xFF1#32).segBase .ss + effectiveAddress (small 0xFF1#32) (.base32 5 (.d8 0#8))).toNat % 16 ≠ 0 ∧
      ControlReady (small 0xFF1#32) (.pcmpeqbXmm [.opSize] 0 ebx) ∧
      operandRefusal (small 0xFF1#32) .ds (effectiveAddress (small 0xFF1#32) (.base32 3 .none)) 16 = none ∧
      ¬ InsideLimit (small 0xFF1#32) .ds (effectiveAddress (small 0xFF1#32) (.base32 3 .none)).toNat 16 ∧
      ((small 0xFF1#32).segBase .ds + effectiveAddress (small 0xFF1#32) (.base32 3 .none)).toNat % 16 ≠ 0 :=
  ⟨⟨rfl, rfl, rfl, fun _ => rfl, fun _ => rfl⟩, by decide,
    (by decide : ¬ ∀ k < 16, ((small 0xFF1#32).segment .ss).holds (0xFF1 + k) = true), by decide,
    ⟨rfl, rfl, rfl, fun _ => rfl, fun _ => rfl⟩, by decide,
    (by decide : ¬ ∀ k < 16, ((small 0xFF1#32).segment .ds).holds (0xFF1 + k) = true), by decide⟩

/-- A fault for each clause: a 128-bit form, Real mode, a register source, a 64-bit form with CR0.EM clear. -/
theorem witness_ExceptionTableBounds :
    (wideOp flat (.pcmpeqbXmm [.opSize] 0 ebx) = true ∧
      exec (.pcmpeqbXmm [.opSize] 0 ebx) (atEbx 0x2001#32) = .fault .gp) ∧
      (real.mode = .realMode ∧ exec (.pcmpeqdMm [] 0 (.mem (.abs16 0xFFF9#16))) real = .fault .gp) ∧
      exec (.pcmpeqbMm [] 0 (.reg 1)) (control false true true false) = .fault .nm ∧
      ((control false true true false).cr0EM = false ∧
        wideOp (control false true true false) (.pcmpeqbMm [] 0 (.reg 1)) = false) :=
  ⟨⟨rfl, eq_fault (by decide)⟩, ⟨rfl, eq_fault (by decide)⟩, eq_fault (by decide), rfl, rfl⟩

/-- A Protected mode state and a Real mode state with the same control state, and two forms of one kind. -/
theorem witness_ControlExceptionsComeFirst :
    (Instr.pcmpeqbMm [] 0 (.reg 1)).wide = (Instr.pcmpeqdMm [] 5 ebx).wide ∧
      exec (.pcmpeqbMm [] 0 (.reg 1)) (control false true true false) = .fault .nm ∧
      ({ real with cr0TS := true } : State).plat.hasMMX = (control false true true false).plat.hasMMX ∧
      ({ real with cr0TS := true } : State).plat.hasSSE2 = (control false true true false).plat.hasSSE2 ∧
      ({ real with cr0TS := true } : State).cr0EM = (control false true true false).cr0EM ∧
      ({ real with cr0TS := true } : State).cr0TS = (control false true true false).cr0TS ∧
      ({ real with cr0TS := true } : State).cr4OSFXSR = (control false true true false).cr4OSFXSR ∧
      ({ real with cr0TS := true } : State).x87Pending = (control false true true false).x87Pending :=
  ⟨rfl, eq_fault (by decide), rfl, rfl, rfl, rfl, rfl, rfl⟩

/-! ### Witnesses: invariants and runs -/

/-- A Real mode step from the last `EIP` from which a three-byte instruction completes. -/
theorem witness_StepKeepsTheInvariant :
    Invariant (withCode { real with eip := 0xFFFC#32 } [0x0F#8, 0x74#8, 0xC1#8]) ∧
      ∃ t, step (withCode { real with eip := 0xFFFC#32 } [0x0F#8, 0x74#8, 0xC1#8]) = .next t :=
  ⟨⟨by decide, fun _ => by decide⟩, exists_next (by decide)⟩

/-- The flat state meets every launch premise and runs two steps, for this and for RunsLeaveTheEnvironmentAlone. -/
theorem witness_LaunchPremisesLastForEveryRun :
    NoUD64 flat ∧ NoUD128 flat ∧ NoNM flat ∧ NoMF flat ∧
      ∃ t, run 2 (withCode flat [0x0F#8, 0x74#8, 0xC0#8, 0x66#8, 0x0F#8, 0x75#8, 0x0B#8]) = .next t :=
  ⟨rfl, ⟨rfl, rfl⟩, rfl, rfl, exists_next (by decide)⟩

/-- Two instructions laid end to end at `EIP`. -/
theorem witness_PlacedProgramRunsInOrderToItsEnd :
    (∀ i ∈ [Instr.pcmpeqbMm [] 0 (.reg 0), .pcmpeqwXmm [.opSize] 1 ebx], i.wf flat.defaultAddrSize = true) ∧
      PlacedAtEip (withCode flat [0x0F#8, 0x74#8, 0xC0#8, 0x66#8, 0x0F#8, 0x75#8, 0x0B#8])
        [.pcmpeqbMm [] 0 (.reg 0), .pcmpeqwXmm [.opSize] 1 ebx] := ⟨by decide, fetched (by decide)⟩

/-- A run whose second step faults, its instruction standing at the `EIP` there, and one whose first is refused. -/
theorem witness_StepFaultsExactlyWhenItsInstructionDoes :
    run 2 (withCode (atEbx 0x2001#32) [0x0F#8, 0x74#8, 0xC0#8, 0x66#8, 0x0F#8, 0x75#8, 0x0B#8]) = .fault .gp ∧
      step (withCode (atEbx 0x2001#32) [0x66#8, 0x0F#8, 0x75#8, 0x0B#8]) = .fault .gp ∧
      PlacedAtEip (withCode (atEbx 0x2001#32) [0x66#8, 0x0F#8, 0x75#8, 0x0B#8]) [.pcmpeqwXmm [.opSize] 1 ebx] ∧
      run 1 (withCode flat [0x90#8]) = .refused .notInScope :=
  ⟨eq_fault (by decide), eq_fault (by decide), fetched (by decide), eq_refused (by decide)⟩

end Sys2Proof.Tests
end

section
/-! Settled statements of the family of encodings (spec/30_encoding.md). -/

namespace Sys2Proof

/-- Settles O7: the byte strings are closed, so the decoder is run on each of them. The first three are the `mm` rows with a
register source; the next three the `xmm` rows, their sources a register, a base register and a SIB byte with a displacement
(R50, R58, R59); the last reads a bare displacement under 16-bit addressing (R60). -/
theorem writtenOutEncodingsDecode : Obligations.WrittenOutEncodingsDecode := by
  unfold Obligations.WrittenOutEncodingsDecode
  refine ⟨?pcmpeqbMm, ?pcmpeqwMm, ?pcmpeqdMm, ?pcmpeqbXmm, ?pcmpeqwXmm, ?pcmpeqdXmm, ?abs16⟩
  case pcmpeqbMm | pcmpeqwMm | pcmpeqdMm => decide
  case pcmpeqbXmm | pcmpeqwXmm | pcmpeqdXmm => decide
  case abs16 => decide

end Sys2Proof
end

section
/-! What the checked operand read (spec/20_memory.md R38) answers, in the terms of the conditions of R111: a value exactly when
the operand is readable, and then the operand's value. -/

namespace Sys2Proof.Machine

theorem limitBad_eq_false {s : State} {seg : SegReg} {ea : Word32} {n : Nat} :
    limitBad s seg ea n = false ↔ InsideLimit s seg ea.toNat n := by
  unfold limitBad InsideLimit
  cases s.mode with
  | protectedMode => simp [State.segLimitOK]
  | realMode | v86Mode => simp

theorem alignBad_eq_false {s : State} {seg : SegReg} {ea : Word32} {n : Nat} :
    alignBad s seg ea n = false ↔ (n = 16 → (s.segBase seg + ea).toNat % 16 = 0) := by
  by_cases h : n = 16 <;> simp [alignBad, h]

theorem operandRefusal_eq_none {s : State} {seg : SegReg} {ea : Word32} {n : Nat} :
    operandRefusal s seg ea n = none ↔
      (s.segment seg).usable = true ∧ (n = 16 → (s.segBase seg).toNat % 16 = 0) ∧
        (n = 8 → s.plat.alignmentCheckEnabled = true → ea.toNat % 8 = 0) := by
  unfold operandRefusal
  split_ifs <;> simp_all

/-- Over a base that is a multiple of 16, an address is one exactly when its offset is (R36). -/
theorem add_toNat_mod_sixteen {base ea : Word32} (h : base.toNat % 16 = 0) :
    (base + ea).toNat % 16 = 0 ↔ ea.toNat % 16 = 0 := by
  rw [BitVec.toNat_add]
  omega

theorem forall_translateOperand {s : State} {seg : SegReg} {ea : Word32} {n : Nat} {P : Translated → Prop} :
    (∀ t ∈ translateOperand s seg ea n, P t) ↔ ∀ k < n, P (s.translate (s.linear seg ea k) .dataRead) := by
  simp [translateOperand]

theorem ofNat_leNat_translateOperand (s : State) (seg : SegReg) (ea : Word32) (n : Nat) :
    BitVec.ofNat (8 * n) (leNat ((translateOperand s seg ea n).map s.byteBehind)) = operandValue s seg ea n := by
  rw [translateOperand, List.map_map]
  rfl

/-- The checked operand read completes exactly on a readable operand, with the operand's value (R38, R111). -/
theorem readOperand_eq_next_iff_readable {s : State} {seg : SegReg} {ea : Word32} {n : Nat} {v : BitVec (8 * n)} :
    readOperand s seg ea n = .next v ↔ OperandReadable s seg ea n ∧ v = operandValue s seg ea n := by
  rw [readOperand_eq_next, operandRefusal_eq_none, limitBad_eq_false, alignBad_eq_false, forall_translateOperand,
    ofNat_leNat_translateOperand]
  constructor
  · rintro ⟨⟨usable, base, unchecked⟩, inside, address, mapped, value⟩
    exact ⟨⟨usable, inside, fun h => ⟨base h, (add_toNat_mod_sixteen (base h)).mp (address h)⟩, unchecked, mapped⟩, value⟩
  · rintro ⟨⟨usable, inside, aligned, unchecked, mapped⟩, value⟩
    exact ⟨⟨usable, fun h => (aligned h).1, unchecked⟩, inside,
      fun h => (add_toNat_mod_sixteen (aligned h).1).mpr (aligned h).2, mapped, value⟩

theorem SourceReadable.operandReadable {s : State} {i : Instr} {m : MemOperand} (h : SourceReadable s i)
    (src : i.src = .mem m) :
    OperandReadable s (operandSegment i.prefixes m) (effectiveAddress s m) (operandSize s i) := by
  simpa only [SourceReadable, src] using h

theorem operandSize_of_wideOp {s : State} {i : Instr} (h : wideOp s i = true) : operandSize s i = 16 := by
  simp [operandSize, h]

theorem operandSize_of_not_wideOp {s : State} {i : Instr} (h : wideOp s i = false) : operandSize s i = 8 := by
  simp [operandSize, h]

end Sys2Proof.Machine
end

section
/-! Settled statements of the family of the packed compares (spec/40_pcmpeq.md). -/

namespace Sys2Proof
open Machine

/-- Settles O16: `laneAt_pcmpeq` gives each lane of the result as a function of the two operands' lanes alone. -/
theorem comparesLaneByLane : Obligations.ComparesLaneByLane := by
  unfold Obligations.ComparesLaneByLane
  refine ⟨?lanes64, ?lanes128, ?noTraffic, ?laneCounts, ?allOnes⟩
  case lanes64 => exact fun w d s i h => laneAt_pcmpeq w d s h
  case lanes128 => exact fun w d s i h => laneAt_pcmpeq w d s h
  case noTraffic =>
    intro w d s d' s' i h sameD sameS
    rw [laneAt_pcmpeq w d s h, laneAt_pcmpeq w d' s' h, laneResult, laneResult, sameD, sameS]
  case laneCounts => decide
  case allOnes => decide

/-- Settles O19: a 64-bit operation is `compare64`, whose conditions are those of R111 one by one; the source's value is read
from its register, or by the checked operand read of 8 bytes. -/
theorem sixtyFourBitFormsComplete : Obligations.SixtyFourBitFormsComplete := by
  unfold Obligations.SixtyFourBitFormsComplete
  intro i s narrow ready readable room
  rw [exec_eq, narrow, if_neg Bool.false_ne_true, compare64_eq_next]
  refine ⟨ready.mmx, controlTests64_eq_none.mpr ⟨ready.em, ready.ts, ready.x87 narrow⟩, _, ?source, room, rfl⟩
  cases src : i.src with
  | reg r => rfl
  | mem m =>
    have operand := readable.operandReadable src
    rw [operandSize_of_not_wideOp narrow] at operand
    exact readOperand_eq_next_iff_readable.mpr ⟨operand, rfl⟩

/-- Settles O20: a 128-bit operation is `compare128`, which tests CR4.OSFXSR where `compare64` tests for a pending x87 error; the
source's value is read from its register, or by the checked operand read of 16 bytes. -/
theorem oneHundredTwentyEightBitFormsComplete : Obligations.OneHundredTwentyEightBitFormsComplete := by
  unfold Obligations.OneHundredTwentyEightBitFormsComplete
  intro i s wide ready readable room
  rw [exec_eq, wide, if_pos rfl, compare128_eq_next]
  refine ⟨ready.mmx, controlTests128_eq_none.mpr ⟨ready.em, ready.osfxsr wide, ready.ts⟩, _, ?source, room, rfl⟩
  cases src : i.src with
  | reg r => rfl
  | mem m =>
    have operand := readable.operandReadable src
    rw [operandSize_of_wideOp wide] at operand
    exact readOperand_eq_next_iff_readable.mpr ⟨operand, rfl⟩

end Sys2Proof
end

section
/-! What a form raises, said once: a control exception of its tests (spec/60_exceptions.md R94 to R96) or, when they pass, an
exception of the checked operand read (spec/20_memory.md R38), which is a segment exception or #PF of one of the bytes. -/

namespace Sys2Proof.Machine

/-! ### The control tests of a form -/

theorem wideOp_eq_true {s : State} {i : Instr} : wideOp s i = true ↔ i.wide = true ∧ s.plat.hasSSE2 = true := by
  simp [wideOp]

/-- The control tests raise #UD, #NM and #MF only (R98). -/
theorem controlTests_eq_some {s : State} {i : Instr} {e : Fault} (h : controlTests s i = some e) :
    e = .ud ∨ e = .nm ∨ e = .mf := by
  unfold controlTests at h
  split at h
  · unfold controlTests128 at h
    split_ifs at h <;> simp_all
  · unfold controlTests64 at h
    split_ifs at h <;> simp_all

/-- The control tests pass under the rows of R111 about control state. -/
theorem controlReady_iff {s : State} {i : Instr} :
    ControlReady s i ↔ s.plat.hasMMX = true ∧ controlTests s i = none := by
  unfold controlTests
  constructor
  · rintro ⟨mmx, em, ts, osfxsr, x87⟩
    cases wide : wideOp s i with
    | true => simp [mmx, controlTests128_eq_none, em, ts, osfxsr wide]
    | false => simp [mmx, controlTests64_eq_none, em, ts, x87 wide]
  · rintro ⟨mmx, pass⟩
    cases wide : wideOp s i with
    | true =>
      obtain ⟨em, osfxsr, ts⟩ := controlTests128_eq_none.mp (by simpa [wide] using pass)
      exact ⟨mmx, em, ts, fun _ => osfxsr, by simp [wide]⟩
    | false =>
      obtain ⟨em, ts, x87⟩ := controlTests64_eq_none.mp (by simpa [wide] using pass)
      exact ⟨mmx, em, ts, by simp [wide], fun _ => x87⟩

theorem controlTests64_eq_nm {s : State} : controlTests64 s = some .nm ↔ s.cr0TS = true ∧ ¬ s.cr0EM = true := by
  unfold controlTests64
  split_ifs <;> simp_all

theorem controlTests128_eq_nm {s : State} :
    controlTests128 s = some .nm ↔ s.cr0TS = true ∧ ¬ (s.cr0EM = true ∨ s.cr4OSFXSR = false) := by
  unfold controlTests128
  split_ifs <;> simp_all

/-- #NM comes after #UD in the order of R98, and before #MF. -/
theorem controlTests_eq_nm {s : State} {i : Instr} :
    controlTests s i = some .nm ↔
      s.cr0TS = true ∧ ¬ (s.cr0EM = true ∨ wideOp s i = true ∧ s.cr4OSFXSR = false) := by
  unfold controlTests
  cases wideOp s i with
  | true => simpa using controlTests128_eq_nm
  | false => simpa using controlTests64_eq_nm

/-! ### The segment exceptions -/

theorem limitBad_eq_true {s : State} {seg : SegReg} {ea : Word32} {n : Nat} :
    limitBad s seg ea n = true ↔ ¬ InsideLimit s seg ea.toNat n := by
  rw [← limitBad_eq_false, Bool.not_eq_false]

theorem insideLimit_of_not_protected {s : State} (h : s.mode ≠ .protectedMode) (seg : SegReg) (ea n : Nat) :
    InsideLimit s seg ea n ↔ ea + n - 1 ≤ 0xFFFF := by
  unfold InsideLimit
  cases mode : s.mode with
  | protectedMode => exact absurd mode h
  | realMode | v86Mode => rfl

theorem operandSize_eq_sixteen {s : State} {i : Instr} : operandSize s i = 16 ↔ wideOp s i = true := by
  cases h : wideOp s i <;> simp [operandSize, h]

/-- The operand that R36 calls misaligned: of a 128-bit operation. -/
theorem alignBad_operandSize {s : State} {i : Instr} {seg : SegReg} {ea : Word32} :
    alignBad s seg ea (operandSize s i) = true ↔ wideOp s i = true ∧ (s.segBase seg + ea).toNat % 16 ≠ 0 := by
  simp [alignBad, operandSize_eq_sixteen]

theorem stackChecked_eq_true {s : State} {seg : SegReg} :
    stackChecked s seg = true ↔ s.mode = .protectedMode ∧ seg = .ss := by
  simp [stackChecked]

/-- Where the operand is not outside the stack's limit, either fault of the operand raises #GP(0) (R34, R36). -/
theorem segmentFault_eq_gp {s : State} {seg : SegReg} {ea : Word32} {n : Nat}
    (inStack : ¬ (limitBad s seg ea n = true ∧ stackChecked s seg = true))
    (bad : limitBad s seg ea n = true ∨ alignBad s seg ea n = true) : segmentFault s seg ea n = some .gp := by
  unfold segmentFault
  split_ifs <;> simp_all

/-- #SS(0) of the segment step: outside the stack's limit (R34). -/
theorem segmentFault_ss_cases {s : State} {seg : SegReg} {ea : Word32} {n : Nat}
    (h : segmentFault s seg ea n = some .ss) : limitBad s seg ea n = true ∧ stackChecked s seg = true := by
  unfold segmentFault at h
  split_ifs at h <;> simp_all

/-- Outside the stack's limit an operand that is not misaligned raises #SS(0): no draw of R40 is made. -/
theorem segmentFault_eq_ss {s : State} {seg : SegReg} {ea : Word32} {n : Nat} (outside : limitBad s seg ea n = true)
    (stack : stackChecked s seg = true) (aligned : ¬ alignBad s seg ea n = true) :
    segmentFault s seg ea n = some .ss := by
  simp [segmentFault, outside, stack, aligned]

/-- #GP(0) of the segment step: outside a limit that is not the stack's, or misaligned (R34, R36). -/
theorem segmentFault_gp_cases {s : State} {seg : SegReg} {ea : Word32} {n : Nat}
    (h : segmentFault s seg ea n = some .gp) :
    limitBad s seg ea n = true ∧ ¬ stackChecked s seg = true ∨ alignBad s seg ea n = true := by
  by_cases misaligned : alignBad s seg ea n = true
  · exact .inr misaligned
  · have outside : limitBad s seg ea n = true := by
      by_contra inside
      rw [Bool.not_eq_true] at inside misaligned
      simp [segmentFault_eq_none.mpr ⟨inside, misaligned⟩] at h
    exact .inl ⟨outside, fun stack => by simp [segmentFault_eq_ss outside stack misaligned] at h⟩

/-! ### The faults of the checked operand read -/

theorem mem_translateOperand {s : State} {seg : SegReg} {ea : Word32} {n : Nat} {t : Translated} :
    t ∈ translateOperand s seg ea n ↔ ∃ k < n, s.translate (s.linear seg ea k) .dataRead = t := by
  simp [translateOperand]

/-- Translation never page-faults in Real mode (R37). -/
theorem translate_ne_pageFault_of_realMode {s : State} (h : s.mode = .realMode) (lin : Word32) (access : Access)
    (code : Nat) : s.translate lin access ≠ .pageFault code := by
  simp [State.translate, h]

/-- The operand read raises #GP(0), #SS(0) and #PF only (R38). -/
theorem readOperand_fault_cases {s : State} {seg : SegReg} {ea : Word32} {n : Nat} {e : Fault}
    (h : readOperand s seg ea n = .fault e) : e = .gp ∨ e = .ss ∨ ∃ code, e = .pf code := by
  obtain ⟨-, segment | ⟨-, code, pf, -⟩⟩ := readOperand_eq_fault h
  · exact (segmentFault_eq_some segment).imp_right .inl
  · exact .inr (.inr ⟨code, pf⟩)

/-- An exception other than #PF comes from the segment step, after the refusals (R38). -/
theorem readOperand_eq_segmentFault {s : State} {seg : SegReg} {ea : Word32} {n : Nat} {e : Fault}
    (notPF : ∀ code, e ≠ .pf code) :
    readOperand s seg ea n = .fault e ↔ operandRefusal s seg ea n = none ∧ segmentFault s seg ea n = some e := by
  constructor
  · intro h
    obtain ⟨free, segment | ⟨-, code, pf, -⟩⟩ := readOperand_eq_fault h
    · exact ⟨free, segment⟩
    · exact absurd pf (notPF code)
  · rintro ⟨free, segment⟩
    simp [readOperand, free, segment, raise]

/-- #PF of an operand has the code of one of its bytes (R93). -/
theorem readOperand_pf_byte {s : State} {seg : SegReg} {ea : Word32} {n code : Nat}
    (h : readOperand s seg ea n = .fault (.pf code)) :
    ∃ k < n, s.translate (s.linear seg ea k) .dataRead = .pageFault code := by
  obtain ⟨-, segment | ⟨-, code', pf, byte⟩⟩ := readOperand_eq_fault h
  · simpa using segmentFault_eq_some segment
  · obtain rfl : code = code' := Fault.pf.inj pf
    exact mem_translateOperand.mp byte

/-- An operand that reaches translation and has a byte that page-faults raises #PF (R93). -/
theorem exists_readOperand_eq_pf {s : State} {seg : SegReg} {ea : Word32} {n : Nat}
    (free : operandRefusal s seg ea n = none) (segment : segmentFault s seg ea n = none)
    (byte : ∃ k < n, ∃ code, s.translate (s.linear seg ea k) .dataRead = .pageFault code) :
    ∃ code, readOperand s seg ea n = .fault (.pf code) := by
  obtain ⟨k, hk, code, fault⟩ := byte
  have listed : code ∈ faultCodes (translateOperand s seg ea n) :=
    mem_faultCodes.mpr (mem_translateOperand.mpr ⟨k, hk, fault⟩)
  simp only [readOperand, free, segment, readTranslated]
  cases codes : faultCodes (translateOperand s seg ea n) with
  | nil => simp [codes] at listed
  | cons first others => exact ⟨_, rfl⟩

/-! ### The faults of a form -/

theorem source64_eq_fault {s : State} {ps : List Prefix} {src : Operand} {e : Fault} :
    source64 s ps src = .fault e ↔
      ∃ m, src = .mem m ∧ readOperand s (operandSegment ps m) (effectiveAddress s m) 8 = .fault e := by
  cases src <;> simp [source64]

theorem source128_eq_fault {s : State} {ps : List Prefix} {src : Operand} {e : Fault} :
    source128 s ps src = .fault e ↔
      ∃ m, src = .mem m ∧ readOperand s (operandSegment ps m) (effectiveAddress s m) 16 = .fault e := by
  cases src <;> simp [source128]

/-- What a form raises: an exception of its control tests, or, when they pass, one of its memory operand's read (R70, R98). -/
theorem exec_eq_fault {i : Instr} {s : State} {e : Fault} :
    exec i s = .fault e ↔
      s.plat.hasMMX = true ∧ controlTests s i = some e ∨
      ControlReady s i ∧ ∃ m, i.src = .mem m ∧
        readOperand s (operandSegment i.prefixes m) (effectiveAddress s m) (operandSize s i) = .fault e := by
  rw [exec_eq, controlReady_iff, and_assoc, ← and_or_left]
  unfold controlTests operandSize
  cases wideOp s i with
  | true => simp only [if_true, compare128_eq_fault, source128_eq_fault]; rfl
  | false => simp only [Bool.false_eq_true, if_false, compare64_eq_fault, source64_eq_fault]; rfl

/-- An exception that is not one of the control tests' comes from the read of the memory operand (R98). -/
theorem exec_eq_fault_of_operand {i : Instr} {s : State} {e : Fault} (operand : ¬ (e = .ud ∨ e = .nm ∨ e = .mf)) :
    exec i s = .fault e ↔ ControlReady s i ∧ ∃ m, i.src = .mem m ∧
      readOperand s (operandSegment i.prefixes m) (effectiveAddress s m) (operandSize s i) = .fault e := by
  rw [exec_eq_fault, or_iff_right]
  exact fun h => operand (controlTests_eq_some h.2)

/-- #GP(0) and #SS(0) come from the segment step of the memory operand's read, after the refusals (R38, R98). -/
theorem exec_eq_segmentFault {i : Instr} {s : State} {e : Fault} (segment : e = .gp ∨ e = .ss) :
    exec i s = .fault e ↔ ControlReady s i ∧ ∃ m, i.src = .mem m ∧
      operandRefusal s (operandSegment i.prefixes m) (effectiveAddress s m) (operandSize s i) = none ∧
      segmentFault s (operandSegment i.prefixes m) (effectiveAddress s m) (operandSize s i) = some e := by
  rw [exec_eq_fault_of_operand (by rcases segment with rfl | rfl <;> simp)]
  simp only [readOperand_eq_segmentFault (show ∀ code, e ≠ .pf code by rcases segment with rfl | rfl <;> simp)]

end Sys2Proof.Machine
end

section
/-! Settled statements of the family of the exceptions (spec/60_exceptions.md). -/

namespace Sys2Proof
open Machine

/-- Settles O34: #NM is never an exception of the operand read, so it is that of the control tests, where it comes after #UD. -/
theorem deviceNotAvailableExactly : Obligations.DeviceNotAvailableExactly := by
  unfold Obligations.DeviceNotAvailableExactly
  intro i s mmx
  have notOperand : ¬ (ControlReady s i ∧ ∃ m, i.src = .mem m ∧
      readOperand s (operandSegment i.prefixes m) (effectiveAddress s m) (operandSize s i) = .fault .nm) := by
    rintro ⟨-, m, -, read⟩
    simpa using readOperand_fault_cases read
  rw [exec_eq_fault, or_iff_left notOperand, controlTests_eq_nm, wideOp_eq_true, and_assoc]
  exact and_iff_right mmx

/-- Settles O36: #GP(0) is that of the segment step, raised for an operand that is misaligned or outside a limit; the limit is
the segment's in Protected mode and 0xFFFF in the other modes. -/
theorem generalProtectionCases : Obligations.GeneralProtectionCases := by
  unfold Obligations.GeneralProtectionCases
  refine ⟨rfl, fun i s => ⟨fun r src => ?register, fun m src => ⟨fun fault => ?only, fun ready free inStack cases => ?does⟩⟩⟩
  case register => simp [exec_eq_segmentFault, src]
  case only =>
    obtain ⟨-, m', src', -, segment⟩ := (exec_eq_segmentFault (.inl rfl)).mp fault
    obtain rfl : m = m' := Operand.mem.inj (src.symm.trans src')
    obtain ⟨outside, notStack⟩ | misaligned := segmentFault_gp_cases segment
    · rw [limitBad_eq_true] at outside
      rw [stackChecked_eq_true] at notStack
      by_cases mode : s.mode = .protectedMode
      · exact .inl ⟨mode, outside, fun ss => notStack ⟨mode, ss⟩⟩
      · rw [insideLimit_of_not_protected mode, not_le] at outside
        exact .inr (.inl ⟨mode, outside⟩)
    · exact .inr (.inr (alignBad_operandSize.mp misaligned))
  case does =>
    refine (exec_eq_segmentFault (.inl rfl)).mpr ⟨ready, m, src, free, segmentFault_eq_gp ?_ ?_⟩
    · rw [limitBad_eq_true, stackChecked_eq_true]
      exact fun ⟨outside, mode, ss⟩ => inStack ⟨mode, ss, outside⟩
    · obtain ⟨-, outside, -⟩ | ⟨mode, outside⟩ | misaligned := cases
      · exact .inl (limitBad_eq_true.mpr outside)
      · rw [limitBad_eq_true, insideLimit_of_not_protected mode, not_le]
        exact .inl outside
      · exact .inr (alignBad_operandSize.mpr misaligned)

/-- Settles O37: #SS(0) is that of the segment step through SS in Protected mode; in the other modes the segment step is not
the stack's, and leaving 0 to 0xFFFF raises #GP(0). -/
theorem stackFaultCases : Obligations.StackFaultCases := by
  unfold Obligations.StackFaultCases
  refine ⟨rfl, fun i s => ⟨fun fault => ?only, fun m src ss ready free =>
    ⟨fun mode outside aligned => ?does, fun mode outside => ?general⟩⟩⟩
  case only =>
    obtain ⟨-, m, src, -, segment⟩ := (exec_eq_segmentFault (.inr rfl)).mp fault
    obtain ⟨outside, stack⟩ := segmentFault_ss_cases segment
    obtain ⟨mode, ss⟩ := stackChecked_eq_true.mp stack
    rw [ss] at outside
    exact ⟨mode, m, src, ss, limitBad_eq_true.mp outside⟩
  case does =>
    refine (exec_eq_segmentFault (.inr rfl)).mpr ⟨ready, m, src, ?_⟩
    rw [ss]
    refine ⟨free, segmentFault_eq_ss (limitBad_eq_true.mpr outside) (stackChecked_eq_true.mpr ⟨mode, rfl⟩) ?_⟩
    rw [alignBad_operandSize]
    exact fun ⟨wide, misaligned⟩ => misaligned (aligned wide)
  case general =>
    refine (exec_eq_segmentFault (.inl rfl)).mpr ⟨ready, m, src, ?_⟩
    rw [ss]
    refine ⟨free, segmentFault_eq_gp ?_ (.inl ?_)⟩
    · rw [stackChecked_eq_true]
      exact fun ⟨_, protectedMode, _⟩ => mode protectedMode
    · rwa [limitBad_eq_true, insideLimit_of_not_protected mode, not_le]

/-- Settles O38: #PF is that of the operand read's translation, which is the identity in Real mode, and its code is one of the
faulting bytes'. -/
theorem pageFaultCases : Obligations.PageFaultCases := by
  unfold Obligations.PageFaultCases
  refine fun i s => ⟨fun code fault => ?only, fun m src ready free segment byte => ?does⟩
  case only =>
    obtain ⟨-, m, src, read⟩ := (exec_eq_fault_of_operand (by simp)).mp fault
    obtain ⟨k, hk, answer⟩ := readOperand_pf_byte read
    exact ⟨fun mode => translate_ne_pageFault_of_realMode mode _ _ code answer, m, src, k, hk, answer⟩
  case does =>
    obtain ⟨code, read⟩ := exists_readOperand_eq_pf free segment byte
    exact ⟨code, (exec_eq_fault_of_operand (by simp)).mpr ⟨ready, m, src, read⟩, readOperand_pf_byte read⟩

end Sys2Proof
end

section
/-! The decoder said through its splits: a byte string is some admitted prefixes and what ends them (the loop of
spec/30_encoding.md R63), the bytes after them are the opcode, ModRM and the operand; what is read is the encoding of a
well-formed instruction, and any such encoding is read back. -/

namespace Sys2Proof

/-! ### Instructions by their parts -/

theorem Instr.form_parts (i : Instr) : Instr.form i.lane i.wide i.prefixes i.dst i.src = i := by cases i <;> rfl

@[simp] theorem Instr.lane_form (w : LaneWidth) (b : Bool) (ps : List Prefix) (d : RegNum) (o : Operand) :
    (Instr.form w b ps d o).lane = w := by cases w <;> cases b <;> rfl

@[simp] theorem Instr.wide_form (w : LaneWidth) (b : Bool) (ps : List Prefix) (d : RegNum) (o : Operand) :
    (Instr.form w b ps d o).wide = b := by cases w <;> cases b <;> rfl

@[simp] theorem Instr.prefixes_form (w : LaneWidth) (b : Bool) (ps : List Prefix) (d : RegNum) (o : Operand) :
    (Instr.form w b ps d o).prefixes = ps := by cases w <;> cases b <;> rfl

@[simp] theorem Instr.dst_form (w : LaneWidth) (b : Bool) (ps : List Prefix) (d : RegNum) (o : Operand) :
    (Instr.form w b ps d o).dst = d := by cases w <;> cases b <;> rfl

@[simp] theorem Instr.src_form (w : LaneWidth) (b : Bool) (ps : List Prefix) (d : RegNum) (o : Operand) :
    (Instr.form w b ps d o).src = o := by cases w <;> cases b <;> rfl

theorem Instr.wf_iff {dflt : AddrSize} {i : Instr} :
    i.wf dflt = true ↔ prefixesAdmitted [] i.prefixes = true ∧ decide (.opSize ∈ i.prefixes) = i.wide ∧
      i.src.wf (addressSize dflt i.prefixes) = true := by
  simp [Instr.wf, and_assoc]

/-! ### Prefixes (R52) -/

/-- The three groups of prefixes of which an instruction may carry one each (R52). -/
def Prefix.group : Prefix → Fin 3
  | .opSize => 0
  | .addrSize => 1
  | .seg _ => 2

theorem Prefix.clash_iff_group (p q : Prefix) : p.clash q = true ↔ p.group = q.group := by
  cases p <;> cases q <;> simp [Prefix.clash, Prefix.group]

theorem Prefix.clashes_iff_group (p : Prefix) (seen : List Prefix) :
    p.clashes seen = true ↔ p.group ∈ seen.map Prefix.group := by
  simp only [Prefix.clashes, List.any_eq_true, Prefix.clash_iff_group, List.mem_map, eq_comm (a := p.group)]

/-- Prefixes may follow those already seen exactly when no group occurs twice (R52). -/
theorem prefixesAdmitted_iff_nodup {seen : List Prefix} (ps : List Prefix) (distinct : (seen.map Prefix.group).Nodup) :
    prefixesAdmitted seen ps = true ↔ ((seen ++ ps).map Prefix.group).Nodup := by
  induction ps generalizing seen with
  | nil => simpa [prefixesAdmitted] using distinct
  | cons p ps ih =>
    by_cases clash : p.group ∈ seen.map Prefix.group
    · rw [List.map_append, List.map_cons, List.nodup_middle]
      simp [prefixesAdmitted, (Prefix.clashes_iff_group p seen).mpr clash, List.mem_map.mp clash]
    · have free : p.clashes seen = false := by
        rwa [← Bool.not_eq_true, Prefix.clashes_iff_group]
      have distinct' : ((seen ++ [p]).map Prefix.group).Nodup := by
        rw [List.map_append]
        exact List.nodup_append'.mpr ⟨distinct, by simp, by simpa [List.Disjoint] using clash⟩
      simp only [prefixesAdmitted, free, Bool.not_false, Bool.true_and, ih distinct', List.append_assoc,
        List.singleton_append]

theorem groups_nodup {ps : List Prefix} (h : prefixesAdmitted [] ps = true) : (ps.map Prefix.group).Nodup := by
  simpa using (prefixesAdmitted_iff_nodup ps (by simp)).mp h

/-- At most one of each group (R52, R62). -/
theorem length_le_three_of_admitted {ps : List Prefix} (h : prefixesAdmitted [] ps = true) : ps.length ≤ 3 := by
  simpa using (groups_nodup h).length_le_card

/-- Admitted prefixes with 66 among them are one more than those without it. -/
theorem length_filter_opSize {ps : List Prefix} (admitted : prefixesAdmitted [] ps = true) (has66 : .opSize ∈ ps) :
    (ps.filter (· ≠ .opSize)).length + 1 = ps.length := by
  have distinct : ps.Nodup := (groups_nodup admitted).of_map
  have filtered : ps.filter (· ≠ .opSize) = ps.erase .opSize := by
    rw [distinct.erase_eq_filter]
    exact List.filter_congr fun p _ => by cases p <;> rfl
  rw [filtered, List.length_erase_add_one has66]

theorem prefixesAdmitted_cons {seen ps : List Prefix} {p : Prefix} :
    prefixesAdmitted seen (p :: ps) = true ↔ p.clashes seen = false ∧ prefixesAdmitted (seen ++ [p]) ps = true := by
  simp [prefixesAdmitted]

/-! ### Reading the prefixes (the loop of R63) -/

theorem takePrefixes_toByte (seen : List Prefix) (p : Prefix) (bs : List Byte) :
    takePrefixes seen (p.toByte :: bs) =
      if p.clashes seen then .bad .prefixNotAdmitted else takePrefixes (seen ++ [p]) bs := by
  simp [takePrefixes, prefixOf_toByte]

theorem takePrefixes_of_not_prefix (seen : List Prefix) {b : Byte} (bs : List Byte) (h : prefixOf b = none) :
    takePrefixes seen (b :: bs) = .ok seen (b :: bs) := by
  simp [takePrefixes, h]

/-- Admitted prefixes are read one after the other, whatever follows them. -/
theorem takePrefixes_map_append {seen ps : List Prefix} (bs : List Byte) (h : prefixesAdmitted seen ps = true) :
    takePrefixes seen (ps.map Prefix.toByte ++ bs) = takePrefixes (seen ++ ps) bs := by
  induction ps generalizing seen with
  | nil => simp
  | cons p ps ih =>
    obtain ⟨free, admitted⟩ := prefixesAdmitted_cons.mp h
    simp [takePrefixes_toByte, free, ih admitted]

/-- How far the prefixes of a byte string reach: after some admitted ones the bytes end, or the next byte is one more that
clashes with one of them, or it is none. -/
inductive PrefixSplit (seen : List Prefix) : List Byte → Prop where
  | ends (ps : List Prefix) (admitted : prefixesAdmitted seen ps = true) : PrefixSplit seen (ps.map Prefix.toByte)
  | clash (ps : List Prefix) (admitted : prefixesAdmitted seen ps = true) (p : Prefix) (rest : List Byte)
      (clash : p.clashes (seen ++ ps) = true) : PrefixSplit seen (ps.map Prefix.toByte ++ p.toByte :: rest)
  | stops (ps : List Prefix) (admitted : prefixesAdmitted seen ps = true) (b : Byte) (rest : List Byte)
      (noPrefix : prefixOf b = none) : PrefixSplit seen (ps.map Prefix.toByte ++ b :: rest)

theorem PrefixSplit.cons {seen : List Prefix} {p : Prefix} {bs : List Byte} (free : p.clashes seen = false)
    (h : PrefixSplit (seen ++ [p]) bs) : PrefixSplit seen (p.toByte :: bs) := by
  cases h with
  | ends ps admitted => exact .ends (p :: ps) (prefixesAdmitted_cons.mpr ⟨free, admitted⟩)
  | clash ps admitted q rest clash =>
    exact .clash (p :: ps) (prefixesAdmitted_cons.mpr ⟨free, admitted⟩) q rest (by simpa using clash)
  | stops ps admitted b rest noPrefix =>
    exact .stops (p :: ps) (prefixesAdmitted_cons.mpr ⟨free, admitted⟩) b rest noPrefix

/-- Every byte string splits so. -/
theorem prefixSplit (seen : List Prefix) (bs : List Byte) : PrefixSplit seen bs := by
  induction bs generalizing seen with
  | nil => exact .ends [] rfl
  | cons b bs ih =>
    cases kind : prefixOf b with
    | none => exact .stops [] rfl b bs kind
    | some p =>
      rw [← toByte_of_prefixOf kind]
      cases clash : p.clashes seen with
      | true => exact .clash [] rfl p bs (by simpa using clash)
      | false => exact (ih _).cons clash

/-! ### The decoder in two parts: the prefixes, and what follows them (R63) -/

/-- The decoder after the prefixes: the opcode, ModRM and the operand. -/
def decodeBody (dflt : AddrSize) (ps : List Prefix) (bs : List Byte) : Parsed Instr :=
  (takeOpcode bs).andThen fun w rest =>
    (takeByte rest).andThen fun b rest =>
      (takeOperand (addressSize dflt ps) (Fields.ofByte b).top (Fields.ofByte b).low rest).andThen fun o rest =>
        .ok (Instr.form w (decide (.opSize ∈ ps)) ps (Fields.ofByte b).mid o) rest

theorem decode_eq_decodeBody (dflt : AddrSize) (bs : List Byte) :
    decode dflt bs = (takePrefixes [] bs).andThen (decodeBody dflt) := rfl

section AfterPrefixes
variable {ps : List Prefix} (admitted : prefixesAdmitted [] ps = true)
include admitted

theorem decode_prefixes_ends (dflt : AddrSize) : decode dflt (ps.map Prefix.toByte) = .bad .truncated := by
  have read := takePrefixes_map_append [] admitted
  rw [List.append_nil] at read
  simp [decode_eq_decodeBody, read, takePrefixes, Parsed.andThen]

theorem decode_prefixes_clash (dflt : AddrSize) {p : Prefix} (clash : p.clashes ps = true) (rest : List Byte) :
    decode dflt (ps.map Prefix.toByte ++ p.toByte :: rest) = .bad .prefixNotAdmitted := by
  simp [decode_eq_decodeBody, takePrefixes_map_append _ admitted, takePrefixes_toByte, clash, Parsed.andThen]

theorem decode_prefixes_stops (dflt : AddrSize) {b : Byte} (noPrefix : prefixOf b = none) (rest : List Byte) :
    decode dflt (ps.map Prefix.toByte ++ b :: rest) = decodeBody dflt ps (b :: rest) := by
  simp [decode_eq_decodeBody, takePrefixes_map_append _ admitted, takePrefixes_of_not_prefix _ _ noPrefix,
    Parsed.andThen]

end AfterPrefixes

/-! ### The opcode (R50, R63) -/

theorem prefixOf_eq_none_of_refused {b : Byte} (h : refusedPrefix b = true) : prefixOf b = none := by
  revert b
  decide

theorem prefixOf_escape : prefixOf 0x0F#8 = none := rfl

theorem takeOpcode_refused {b : Byte} (rest : List Byte) (h : refusedPrefix b = true) :
    takeOpcode (b :: rest) = .bad .prefixNotAdmitted := by
  simp [takeOpcode, takeByte, Parsed.andThen, h]

theorem takeOpcode_other {b : Byte} (rest : List Byte) (h : refusedPrefix b = false) (other : b ≠ 0x0F#8) :
    takeOpcode (b :: rest) = .bad .notInScope := by
  simp [takeOpcode, takeByte, Parsed.andThen, h, other]

theorem takeOpcode_escape (op : Byte) (rest : List Byte) :
    takeOpcode (0x0F#8 :: op :: rest) =
      match laneOf op with
      | some w => .ok w rest
      | none => .bad .notInScope := rfl

/-- The lane width of the opcode byte `0x74 + k` (R50). -/
theorem exists_lane (k : Fin 3) : ∃ w : LaneWidth, BitVec.ofNat 8 (0x74 + k.val) = w.opcode ∧ w.bits = 8 * 2 ^ k.val := by
  match k with
  | 0 => exact ⟨.byte, rfl, rfl⟩
  | 1 => exact ⟨.word, rfl, rfl⟩
  | 2 => exact ⟨.dword, rfl, rfl⟩

theorem decodeBody_opcode (dflt : AddrSize) (ps : List Prefix) (w : LaneWidth) (f : Fields) (rest : List Byte) :
    decodeBody dflt ps (0x0F#8 :: w.opcode :: f.toByte :: rest) =
      (takeOperand (addressSize dflt ps) f.top f.low rest).andThen fun o rest =>
        .ok (Instr.form w (decide (.opSize ∈ ps)) ps f.mid o) rest := by
  simp [decodeBody, takeOpcode_escape, laneOf_opcode, takeByte, Parsed.andThen, Fields.ofByte_toByte]

/-! ### Displacements (R57) -/

/-- Reading one thing and making another of it. -/
theorem Parsed.andThen_ok_eq_ok {α β : Type} {p : Parsed α} {g : α → β} {u : β} {rest : List Byte} :
    (p.andThen fun v rest => .ok (g v) rest) = .ok u rest ↔ ∃ v, p = .ok v rest ∧ g v = u := by
  cases p with
  | ok v mid => simp [Parsed.andThen, and_comm]
  | bad e => simp [Parsed.andThen]

theorem toNat_ofNat_leNat {n : Nat} {bs : List Byte} (h : 256 ^ bs.length ≤ 2 ^ n) :
    (BitVec.ofNat n (leNat bs)).toNat = leNat bs := by
  rw [BitVec.toNat_ofNat, Nat.mod_eq_of_lt ((leNat_lt bs).trans_le h)]

theorem takeWord16_eq_ok {bs rest : List Byte} {d : Word16} :
    takeWord16 bs = .ok d rest ↔ bs = leBytes 2 d.toNat ++ rest := by
  refine ⟨fun h => ?_, fun h => h ▸ takeWord16_leBytes d rest⟩
  match bs, h with
  | b0 :: b1 :: rest', h =>
    obtain ⟨rfl, rfl⟩ := Parsed.ok.inj h
    rw [toNat_ofNat_leNat (by simp), show 2 = [b0, b1].length from rfl, leBytes_leNat]
    rfl

theorem takeWord32_eq_ok {bs rest : List Byte} {d : Word32} :
    takeWord32 bs = .ok d rest ↔ bs = leBytes 4 d.toNat ++ rest := by
  refine ⟨fun h => ?_, fun h => h ▸ takeWord32_leBytes d rest⟩
  match bs, h with
  | b0 :: b1 :: b2 :: b3 :: rest', h =>
    obtain ⟨rfl, rfl⟩ := Parsed.ok.inj h
    rw [toNat_ofNat_leNat (by simp), show 4 = [b0, b1, b2, b3].length from rfl, leBytes_leNat]
    rfl

theorem takeDisp32_eq_ok {mod : Fin 4} (memory : mod ≠ 3) {bs rest : List Byte} {d : Disp32} :
    takeDisp32 mod bs = .ok d rest ↔ d.mod = mod ∧ bs = d.encode ++ rest := by
  refine ⟨fun h => ?_, fun ⟨same, read⟩ => by rw [← same, read, takeDisp32_encode]⟩
  unfold takeDisp32 at h
  split_ifs at h with zero one
  · obtain ⟨rfl, rfl⟩ := Parsed.ok.inj h
    exact ⟨zero.symm, rfl⟩
  · obtain ⟨v, read, rfl⟩ := Parsed.andThen_ok_eq_ok.mp h
    exact ⟨one.symm, takeByte_eq_ok.mp read⟩
  · obtain ⟨v, read, rfl⟩ := Parsed.andThen_ok_eq_ok.mp h
    exact ⟨show 2 = mod by omega, takeWord32_eq_ok.mp read⟩

theorem takeDisp16_eq_ok {mod : Fin 4} (memory : mod ≠ 3) {bs rest : List Byte} {d : Disp16} :
    takeDisp16 mod bs = .ok d rest ↔ d.mod = mod ∧ bs = d.encode ++ rest := by
  refine ⟨fun h => ?_, fun ⟨same, read⟩ => by rw [← same, read, takeDisp16_encode]⟩
  unfold takeDisp16 at h
  split_ifs at h with zero one
  · obtain ⟨rfl, rfl⟩ := Parsed.ok.inj h
    exact ⟨zero.symm, rfl⟩
  · obtain ⟨v, read, rfl⟩ := Parsed.andThen_ok_eq_ok.mp h
    exact ⟨one.symm, takeByte_eq_ok.mp read⟩
  · obtain ⟨v, read, rfl⟩ := Parsed.andThen_ok_eq_ok.mp h
    exact ⟨show 2 = mod by omega, takeWord16_eq_ok.mp read⟩

theorem Disp32.mod_eq_zero {d : Disp32} : d.mod = 0 ↔ d = .none := by cases d <;> simp [Disp32.mod]
theorem Disp16.mod_eq_zero {d : Disp16} : d.mod = 0 ↔ d = .none := by cases d <;> simp [Disp16.mod]

/-! ### Memory operands (R58 to R60): which forms have an encoding of their own -/

theorem MemOperand.wf_base32 {b : RegNum} {d : Disp32} :
    (MemOperand.base32 b d).wf = true ↔ b ≠ 4 ∧ ¬ (d.mod = 0 ∧ b = 5) := by
  simp [MemOperand.wf, Disp32.mod_eq_zero]
  tauto

theorem MemOperand.wf_sib {sc : Fin 4} {x : Option RegNum} {b : RegNum} {d : Disp32} :
    (MemOperand.sib sc x b d).wf = true ↔ x ≠ some 4 ∧ ¬ (d.mod = 0 ∧ b = 5) := by
  simp [MemOperand.wf, Disp32.mod_eq_zero]
  tauto

theorem MemOperand.wf_sibNoBase {sc : Fin 4} {x : Option RegNum} {d : Word32} :
    (MemOperand.sibNoBase sc x d).wf = true ↔ x ≠ some 4 := by
  simp [MemOperand.wf]

theorem MemOperand.wf_base16 {r : RegNum} {d : Disp16} :
    (MemOperand.base16 r d).wf = true ↔ ¬ (d.mod = 0 ∧ r = 6) := by
  simp [MemOperand.wf, Disp16.mod_eq_zero]
  tauto

theorem Operand.mod_mem_ne_three (m : MemOperand) : (Operand.mem m).mod ≠ 3 := by
  cases m with
  | abs32 d | abs16 d | sibNoBase sc x d => simp [Operand.mod]
  | base32 b d | sib sc x b d => cases d <;> simp [Operand.mod, Disp32.mod]
  | base16 r d => cases d <;> simp [Operand.mod, Disp16.mod]

theorem takeSib_cons (mod : Fin 4) (b : Byte) (rest : List Byte) :
    takeSib mod (b :: rest) =
      if mod = 0 ∧ (Fields.ofByte b).low = 5 then
        (takeWord32 rest).andThen fun d r => .ok (.sibNoBase (Fields.ofByte b).top (indexOf (Fields.ofByte b).mid) d) r
      else
        (takeDisp32 mod rest).andThen fun d r =>
          .ok (.sib (Fields.ofByte b).top (indexOf (Fields.ofByte b).mid) (Fields.ofByte b).low d) r := rfl

theorem indexOf_ne_some_four (r : RegNum) : indexOf r ≠ some 4 := by
  unfold indexOf
  split <;> simp_all

/-! ### Operands written and read back -/

/-- A memory operand is read back as it was written. -/
theorem takeMem_tail {m : MemOperand} (wf : m.wf = true) (rest : List Byte) :
    takeMem m.size (Operand.mem m).mod (Operand.mem m).rm ((Operand.mem m).tail ++ rest) = .ok m rest := by
  cases m with
  | abs32 d =>
    simp [MemOperand.size, takeMem, Operand.mod, Operand.rm, Operand.tail, takeMem32, takeWord32_leBytes, Parsed.andThen]
  | abs16 d =>
    simp [MemOperand.size, takeMem, Operand.mod, Operand.rm, Operand.tail, takeMem16, takeWord16_leBytes, Parsed.andThen]
  | base32 b d =>
    obtain ⟨noSib, own⟩ := MemOperand.wf_base32.mp wf
    simp [MemOperand.size, takeMem, Operand.mod, Operand.rm, Operand.tail, takeMem32, noSib, own, takeDisp32_encode,
      Parsed.andThen]
  | base16 r d =>
    simp [MemOperand.size, takeMem, Operand.mod, Operand.rm, Operand.tail, takeMem16, MemOperand.wf_base16.mp wf,
      takeDisp16_encode, Parsed.andThen]
  | sib sc x b d =>
    obtain ⟨index, own⟩ := MemOperand.wf_sib.mp wf
    simp [MemOperand.size, takeMem, Operand.mod, Operand.rm, Operand.tail, takeMem32, takeSib_cons,
      Fields.ofByte_toByte, own, indexOf_indexField index, takeDisp32_encode, Parsed.andThen]
  | sibNoBase sc x d =>
    simp [MemOperand.size, takeMem, Operand.mod, Operand.rm, Operand.tail, takeMem32, takeSib_cons,
      Fields.ofByte_toByte, indexOf_indexField (MemOperand.wf_sibNoBase.mp wf), takeWord32_leBytes, Parsed.andThen]

theorem takeOperand_tail {size : AddrSize} {o : Operand} (wf : o.wf size = true) (rest : List Byte) :
    takeOperand size o.mod o.rm (o.tail ++ rest) = .ok o rest := by
  cases o with
  | reg r => simp [takeOperand, Operand.mod, Operand.rm, Operand.tail]
  | mem m =>
    simp only [Operand.wf, Bool.and_eq_true, beq_iff_eq] at wf
    obtain ⟨wf, rfl⟩ := wf
    simp [takeOperand, Operand.mod_mem_ne_three, takeMem_tail wf, Parsed.andThen]

/-! ### Operands read and written back -/

/-- What it says that a memory operand was read under an address size with `mod` and `rm`: it has an encoding of its own, and
that encoding is what was read. -/
structure MemDecoded (size : AddrSize) (mod : Fin 4) (rm : RegNum) (bs rest : List Byte) (m : MemOperand) : Prop where
  wf : m.wf = true
  size_eq : m.size = size
  mod_eq : (Operand.mem m).mod = mod
  rm_eq : (Operand.mem m).rm = rm
  bytes : bs = (Operand.mem m).tail ++ rest

theorem takeSib_eq_ok {mod : Fin 4} (memory : mod ≠ 3) {bs rest : List Byte} {m : MemOperand}
    (h : takeSib mod bs = .ok m rest) : MemDecoded .a32 mod 4 bs rest m := by
  cases bs with
  | nil => simp [takeSib, takeByte, Parsed.andThen] at h
  | cons b bs =>
    rw [takeSib_cons] at h
    split_ifs at h with noBase
    · obtain ⟨d, disp, rfl⟩ := Parsed.andThen_ok_eq_ok.mp h
      obtain rfl := takeWord32_eq_ok.mp disp
      refine ⟨MemOperand.wf_sibNoBase.mpr (indexOf_ne_some_four _), rfl, noBase.1.symm, rfl, ?_⟩
      simp only [Operand.tail, indexField_indexOf, ← noBase.2, List.cons_append]
      exact congrArg (· :: _) (Fields.toByte_ofByte b).symm
    · obtain ⟨d, disp, rfl⟩ := Parsed.andThen_ok_eq_ok.mp h
      obtain ⟨rfl, rfl⟩ := (takeDisp32_eq_ok memory).mp disp
      refine ⟨MemOperand.wf_sib.mpr ⟨indexOf_ne_some_four _, noBase⟩, rfl, rfl, rfl, ?_⟩
      simp only [Operand.tail, indexField_indexOf, List.cons_append]
      exact congrArg (· :: _) (Fields.toByte_ofByte b).symm

theorem takeMem32_eq_ok {mod : Fin 4} (memory : mod ≠ 3) {rm : RegNum} {bs rest : List Byte} {m : MemOperand}
    (h : takeMem32 mod rm bs = .ok m rest) : MemDecoded .a32 mod rm bs rest m := by
  unfold takeMem32 at h
  split_ifs at h with sib bare
  · exact sib ▸ takeSib_eq_ok memory h
  · obtain ⟨d, disp, rfl⟩ := Parsed.andThen_ok_eq_ok.mp h
    exact ⟨rfl, rfl, bare.1.symm, bare.2.symm, takeWord32_eq_ok.mp disp⟩
  · obtain ⟨d, disp, rfl⟩ := Parsed.andThen_ok_eq_ok.mp h
    obtain ⟨rfl, read⟩ := (takeDisp32_eq_ok memory).mp disp
    exact ⟨MemOperand.wf_base32.mpr ⟨sib, bare⟩, rfl, rfl, rfl, read⟩

theorem takeMem16_eq_ok {mod : Fin 4} (memory : mod ≠ 3) {rm : RegNum} {bs rest : List Byte} {m : MemOperand}
    (h : takeMem16 mod rm bs = .ok m rest) : MemDecoded .a16 mod rm bs rest m := by
  unfold takeMem16 at h
  split_ifs at h with bare
  · obtain ⟨d, disp, rfl⟩ := Parsed.andThen_ok_eq_ok.mp h
    exact ⟨rfl, rfl, bare.1.symm, bare.2.symm, takeWord16_eq_ok.mp disp⟩
  · obtain ⟨d, disp, rfl⟩ := Parsed.andThen_ok_eq_ok.mp h
    obtain ⟨rfl, read⟩ := (takeDisp16_eq_ok memory).mp disp
    exact ⟨MemOperand.wf_base16.mpr bare, rfl, rfl, rfl, read⟩

theorem takeMem_eq_ok {size : AddrSize} {mod : Fin 4} (memory : mod ≠ 3) {rm : RegNum} {bs rest : List Byte}
    {m : MemOperand} (h : takeMem size mod rm bs = .ok m rest) : MemDecoded size mod rm bs rest m := by
  cases size with
  | a32 => exact takeMem32_eq_ok memory h
  | a16 => exact takeMem16_eq_ok memory h

theorem takeOperand_eq_ok {size : AddrSize} {mod : Fin 4} {rm : RegNum} {bs rest : List Byte} {o : Operand}
    (h : takeOperand size mod rm bs = .ok o rest) :
    o.wf size = true ∧ o.mod = mod ∧ o.rm = rm ∧ bs = o.tail ++ rest := by
  unfold takeOperand at h
  split_ifs at h with register
  · obtain ⟨rfl, rfl⟩ := Parsed.ok.inj h
    exact ⟨rfl, register.symm, rfl, rfl⟩
  · obtain ⟨m, read, rfl⟩ := Parsed.andThen_ok_eq_ok.mp h
    obtain ⟨wf, rfl, mod, rm, bytes⟩ := takeMem_eq_ok register read
    exact ⟨by simp [Operand.wf, wf], mod, rm, bytes⟩

/-! ### The whole decoder -/

/-- A well-formed instruction is read back as it was written. -/
theorem decode_encode {dflt : AddrSize} {i : Instr} (wf : i.wf dflt = true) (rest : List Byte) :
    decode dflt (encode i ++ rest) = .ok i rest := by
  obtain ⟨admitted, row, operand⟩ := Instr.wf_iff.mp wf
  have bytes : encode i ++ rest = i.prefixes.map Prefix.toByte ++ 0x0F#8 :: i.lane.opcode ::
      Fields.toByte { top := i.src.mod, mid := i.dst, low := i.src.rm } :: (i.src.tail ++ rest) := by
    simp [encode]
  rw [bytes, decode_prefixes_stops admitted dflt prefixOf_escape, decodeBody_opcode, takeOperand_tail operand, row]
  simp [Parsed.andThen, Instr.form_parts]

theorem takeOpcode_eq_ok {bs rest : List Byte} {w : LaneWidth} (h : takeOpcode bs = .ok w rest) :
    bs = 0x0F#8 :: w.opcode :: rest := by
  obtain ⟨b, mid, first, opcode⟩ := Parsed.andThen_eq_ok.mp h
  obtain rfl := takeByte_eq_ok.mp first
  split_ifs at opcode with refused other
  obtain ⟨op, mid', second, row⟩ := Parsed.andThen_eq_ok.mp opcode
  obtain rfl := takeByte_eq_ok.mp second
  cases lane : laneOf op with
  | none => simp [lane] at row
  | some w' =>
    simp only [lane, Parsed.ok.injEq] at row
    obtain ⟨rfl, rfl⟩ := row
    rw [opcode_of_laneOf lane, not_not.mp other]

/-- What follows the prefixes is written back as it was read. -/
theorem decodeBody_eq_ok {dflt : AddrSize} {ps : List Prefix} {bs rest : List Byte} {i : Instr}
    (h : decodeBody dflt ps bs = .ok i rest) :
    i.prefixes = ps ∧ i.wide = decide (.opSize ∈ ps) ∧ i.src.wf (addressSize dflt ps) = true ∧
      bs = 0x0F#8 :: i.lane.opcode :: Fields.toByte { top := i.src.mod, mid := i.dst, low := i.src.rm } ::
        (i.src.tail ++ rest) := by
  obtain ⟨w, mid, opcode, afterOpcode⟩ := Parsed.andThen_eq_ok.mp h
  obtain rfl := takeOpcode_eq_ok opcode
  obtain ⟨b, mid', modRM, afterModRM⟩ := Parsed.andThen_eq_ok.mp afterOpcode
  obtain rfl := takeByte_eq_ok.mp modRM
  obtain ⟨o, operand, rfl⟩ := Parsed.andThen_ok_eq_ok.mp afterModRM
  obtain ⟨wf, mod, rm, rfl⟩ := takeOperand_eq_ok operand
  simp only [Instr.prefixes_form, Instr.wide_form, Instr.src_form, Instr.lane_form, Instr.dst_form, mod, rm, wf, true_and]
  exact congrArg (_ :: _ :: · :: _) (Fields.toByte_ofByte b).symm

/-- The decoder accepts exactly the encodings of well-formed instructions, and reads those instructions. -/
theorem decode_eq_ok_iff {dflt : AddrSize} {bs rest : List Byte} {i : Instr} :
    decode dflt bs = .ok i rest ↔ i.wf dflt = true ∧ encode i ++ rest = bs := by
  refine ⟨fun h => ?_, fun ⟨wf, read⟩ => read ▸ decode_encode wf rest⟩
  cases prefixSplit [] bs with
  | ends ps admitted => simp [decode_prefixes_ends admitted] at h
  | clash ps admitted p mid clash => simp [decode_prefixes_clash admitted dflt clash] at h
  | stops ps admitted b mid noPrefix =>
    rw [decode_prefixes_stops admitted dflt noPrefix] at h
    obtain ⟨rfl, row, operand, body⟩ := decodeBody_eq_ok h
    exact ⟨Instr.wf_iff.mpr ⟨admitted, row.symm, operand⟩, by simp [encode, body]⟩

/-! ### Lengths (R62) -/

theorem length_encode (i : Instr) : (encode i).length = i.length := Laws.EncodeLength.of_tail i

theorem MemOperand.sibBytes_le_one (m : MemOperand) : m.sibBytes ≤ 1 := by cases m <;> simp [MemOperand.sibBytes]

theorem MemOperand.dispBytes_cases (m : MemOperand) :
    m.dispBytes = 0 ∨ m.dispBytes = 1 ∨ m.dispBytes = 2 ∨ m.dispBytes = 4 := by
  cases m with
  | abs32 d | abs16 d | sibNoBase sc x d => simp [MemOperand.dispBytes]
  | base32 b d | sib sc x b d => cases d <;> simp [MemOperand.dispBytes, Disp32.bytes]
  | base16 r d => cases d <;> simp [MemOperand.dispBytes, Disp16.bytes]

theorem Operand.extraBytes_le_five (o : Operand) : o.extraBytes ≤ 5 := by
  cases o with
  | reg r => simp [Operand.extraBytes]
  | mem m =>
    have sib := m.sibBytes_le_one
    have disp := m.dispBytes_cases
    simp only [Operand.extraBytes]
    omega

/-- An instruction has 3 to 11 bytes (R62). -/
theorem Instr.length_bounds {dflt : AddrSize} {i : Instr} (wf : i.wf dflt = true) : 3 ≤ i.length ∧ i.length ≤ 11 := by
  obtain ⟨admitted, -, -⟩ := Instr.wf_iff.mp wf
  have prefixes := length_le_three_of_admitted admitted
  have extra := i.src.extraBytes_le_five
  simp only [Instr.length, instrLength]
  omega

/-! ### Operands with enough bytes (R57 to R60) -/

theorem ofNat_leNat_two (b0 b1 : Byte) : BitVec.ofNat 16 (leNat [b0, b1]) = b1 ++ b0 := by
  apply BitVec.eq_of_toNat_eq
  rw [toNat_ofNat_leNat (by simp), BitVec.toNat_append, ← Nat.shiftLeft_add_eq_or_of_lt b0.isLt]
  simp only [leNat]
  omega

theorem ofNat_leNat_four (b0 b1 b2 b3 : Byte) :
    BitVec.ofNat 32 (leNat [b0, b1, b2, b3]) = b3 ++ b2 ++ b1 ++ b0 := by
  apply BitVec.eq_of_toNat_eq
  rw [toNat_ofNat_leNat (by simp)]
  simp only [BitVec.toNat_append, leNat]
  rw [← Nat.shiftLeft_add_eq_or_of_lt b2.isLt, ← Nat.shiftLeft_add_eq_or_of_lt b1.isLt,
    ← Nat.shiftLeft_add_eq_or_of_lt b0.isLt]
  omega

theorem takeWord16_two (b0 b1 : Byte) (rest : List Byte) : takeWord16 (b0 :: b1 :: rest) = .ok (b1 ++ b0) rest := by
  rw [takeWord16, ofNat_leNat_two]

theorem takeWord32_four (b0 b1 b2 b3 : Byte) (rest : List Byte) :
    takeWord32 (b0 :: b1 :: b2 :: b3 :: rest) = .ok (b3 ++ b2 ++ b1 ++ b0) rest := by
  rw [takeWord32, ofNat_leNat_four]

theorem mod_eq_of_memory {mod : Fin 4} (memory : mod ≠ 3) : mod = 0 ∨ mod = 1 ∨ mod = 2 := by omega

/-- The displacement that a 32-bit form with a base reads from four bytes (R57, R58). -/
theorem takeDisp32_value {mod : Fin 4} (memory : mod ≠ 3) (b0 b1 b2 b3 : Byte) (rest : List Byte) :
    ∃ d r, takeDisp32 mod (b0 :: b1 :: b2 :: b3 :: rest) = .ok d r ∧
      r = (if mod = 2 then rest else if mod = 1 then b1 :: b2 :: b3 :: rest else b0 :: b1 :: b2 :: b3 :: rest) ∧
      Machine.dispValue32 d = if mod = 2 then b3 ++ b2 ++ b1 ++ b0 else if mod = 1 then b0.signExtend 32 else 0#32 := by
  rcases mod_eq_of_memory memory with rfl | rfl | rfl
  · exact ⟨.none, _, rfl, rfl, rfl⟩
  · exact ⟨.d8 b0, _, rfl, rfl, rfl⟩
  · exact ⟨.d32 _, _, rfl, rfl, ofNat_leNat_four b0 b1 b2 b3⟩

/-- The displacement that a 16-bit form with registers reads from two bytes (R57, R60). -/
theorem takeDisp16_value {mod : Fin 4} (memory : mod ≠ 3) (b0 b1 : Byte) (rest : List Byte) :
    ∃ d r, takeDisp16 mod (b0 :: b1 :: rest) = .ok d r ∧
      r = (if mod = 2 then rest else if mod = 1 then b1 :: rest else b0 :: b1 :: rest) ∧
      Machine.dispValue16 d = if mod = 2 then b1 ++ b0 else if mod = 1 then b0.signExtend 16 else 0#16 := by
  rcases mod_eq_of_memory memory with rfl | rfl | rfl
  · exact ⟨.none, _, rfl, rfl, rfl⟩
  · exact ⟨.d8 b0, _, rfl, rfl, rfl⟩
  · exact ⟨.d16 _, _, rfl, rfl, ofNat_leNat_two b0 b1⟩

theorem exists_takeDisp32 {mod : Fin 4} (memory : mod ≠ 3) {bs : List Byte} (enough : 4 ≤ bs.length) :
    ∃ d rest, takeDisp32 mod bs = .ok d rest := by
  match bs, enough with
  | b0 :: b1 :: b2 :: b3 :: rest, _ =>
    obtain ⟨d, r, read, -⟩ := takeDisp32_value memory b0 b1 b2 b3 rest
    exact ⟨d, r, read⟩

theorem exists_takeWord32 {bs : List Byte} (enough : 4 ≤ bs.length) : ∃ d rest, takeWord32 bs = .ok d rest := by
  match bs, enough with
  | b0 :: b1 :: b2 :: b3 :: rest, _ => exact ⟨_, rest, rfl⟩

theorem Parsed.exists_andThen_ok {α β : Type} {p : Parsed α} (g : α → β) (h : ∃ v rest, p = .ok v rest) :
    ∃ u rest, (p.andThen fun v rest => .ok (g v) rest) = .ok u rest := by
  obtain ⟨v, rest, rfl⟩ := h
  exact ⟨g v, rest, rfl⟩

/-- Five bytes after ModRM are enough for a memory operand: a SIB byte and a disp32 (R62). -/
theorem exists_takeMem {mod : Fin 4} (memory : mod ≠ 3) (size : AddrSize) (rm : RegNum) {bs : List Byte}
    (enough : 5 ≤ bs.length) : ∃ m rest, takeMem size mod rm bs = .ok m rest := by
  match bs, enough with
  | b0 :: b1 :: b2 :: b3 :: b4 :: rest, _ =>
    cases size with
    | a32 =>
      simp only [takeMem, takeMem32, takeSib_cons]
      split_ifs with sib noBase bare
      · exact Parsed.exists_andThen_ok _ (exists_takeWord32 (by simp))
      · exact Parsed.exists_andThen_ok _ (exists_takeDisp32 memory (by simp))
      · exact Parsed.exists_andThen_ok _ (exists_takeWord32 (by simp))
      · exact Parsed.exists_andThen_ok _ (exists_takeDisp32 memory (by simp))
    | a16 =>
      obtain ⟨d, r, read, -⟩ := takeDisp16_value memory b0 b1 (b2 :: b3 :: b4 :: rest)
      simp only [takeMem, takeMem16]
      split_ifs with bare
      · exact ⟨_, _, rfl⟩
      · exact Parsed.exists_andThen_ok _ ⟨d, r, read⟩

theorem exists_takeOperand (size : AddrSize) (mod : Fin 4) (rm : RegNum) {bs : List Byte} (enough : 5 ≤ bs.length) :
    ∃ o rest, takeOperand size mod rm bs = .ok o rest ∧ (mod = 3 → o = .reg rm) ∧ (mod ≠ 3 → ∃ m, o = .mem m) := by
  by_cases register : mod = 3
  · exact ⟨.reg rm, bs, by simp [takeOperand, register], fun _ => rfl, fun memory => absurd register memory⟩
  · obtain ⟨m, rest, read⟩ := exists_takeMem register size rm enough
    exact ⟨.mem m, rest, by simp [takeOperand, register, read, Parsed.andThen], fun r => absurd r register, fun _ => ⟨m, rfl⟩⟩

/-! ### The segment (R61) and the SIB byte (R59) of a memory operand -/

theorem sibBytes_eq_one_iff {m : MemOperand} (wf : m.wf = true) :
    m.sibBytes = 1 ↔ m.size = .a32 ∧ (Operand.mem m).rm = 4 := by
  cases m with
  | abs32 d | abs16 d | sib sc x b d | sibNoBase sc x d => simp [MemOperand.sibBytes, MemOperand.size, Operand.rm]
  | base32 b d => simp [MemOperand.sibBytes, MemOperand.size, Operand.rm, (MemOperand.wf_base32.mp wf).1]
  | base16 r d => simp [MemOperand.sibBytes, MemOperand.size]

theorem segmentPrefix_eq_none {ps : List Prefix} (h : ∀ r, .seg r ∉ ps) : Machine.segmentPrefix ps = none := by
  induction ps with
  | nil => rfl
  | cons p ps ih =>
    have later := ih fun r inside => h r (List.mem_cons_of_mem p inside)
    cases p with
    | opSize | addrSize => exact later
    | seg r => exact absurd List.mem_cons_self (h r)

/-- Admitted prefixes name at most one segment, so the first that names one decides. -/
theorem segmentPrefix_eq_some {ps : List Prefix} (distinct : (ps.map Prefix.group).Nodup) {r : SegReg}
    (h : .seg r ∈ ps) : Machine.segmentPrefix ps = some r := by
  induction ps with
  | nil => simp at h
  | cons p ps ih =>
    rw [List.map_cons, List.nodup_cons] at distinct
    obtain ⟨new, distinct⟩ := distinct
    cases p with
    | opSize | addrSize => exact ih distinct (by simpa using h)
    | seg q =>
      have single : .seg r ∉ ps := fun inside => new (List.mem_map.mpr ⟨.seg r, inside, rfl⟩)
      have same : r = q := by simpa [single] using h
      rw [same]
      rfl

end Sys2Proof
end

section
/-! Settled statements of the encodings, the addresses and the segments (spec/30_encoding.md). -/

namespace Sys2Proof
open Machine

/-- Settles O1: the encoder's bytes are admitted prefixes, the opcode, ModRM and the operand's bytes, and each is read back. -/
theorem encodeThenDecodeGivesTheInstruction : Obligations.EncodeThenDecodeGivesTheInstruction := by
  unfold Obligations.EncodeThenDecodeGivesTheInstruction
  exact fun dflt i rest wf => decode_encode wf rest

/-- Settles O2: bytes that decode split into admitted prefixes and a body that is an opcode, ModRM and an operand, each of which
is written back as it was read. -/
theorem decodeThenEncodeGivesTheBytes : Obligations.DecodeThenEncodeGivesTheBytes := by
  unfold Obligations.DecodeThenEncodeGivesTheBytes
  exact fun dflt bs rest i h => decode_eq_ok_iff.mp h

/-- Settles O3: what decodes is the encoding of a well-formed instruction, which has at most three prefixes (R52) and at most
five bytes after ModRM. -/
theorem decodedLengthFollowsTheFormula : Obligations.DecodedLengthFollowsTheFormula := by
  unfold Obligations.DecodedLengthFollowsTheFormula
  refine ⟨fun dflt bs rest i h => ?general, ?shortest, ?longest⟩
  case general =>
    obtain ⟨wf, read⟩ := decode_eq_ok_iff.mp h
    obtain ⟨atLeast, atMost⟩ := Instr.length_bounds wf
    refine ⟨by simp [← read, length_encode], ?formula, fun m _ => ⟨m.sibBytes_le_one, m.dispBytes_cases⟩, atLeast, atMost,
      by omega⟩
    cases src : i.src <;> simp [Instr.length, instrLength, src, Operand.extraBytes, add_assoc]
  case shortest => exact ⟨.pcmpeqbMm [] 0 (.reg 0), by decide, rfl⟩
  case longest =>
    exact ⟨[0x65#8, 0x66#8, 0x67#8, 0x0F#8, 0x75#8, 0x84#8, 0x00#8, 1#8, 2#8, 3#8, 4#8],
      .pcmpeqwXmm [.seg .gs, .opSize, .addrSize] 0 (.mem (.sib 0 (some 0) 0 (.d32 0x04030201#32))), by decide, rfl⟩

/-- Settles O4: LOCK and the repeat prefixes end the admitted prefixes and are refused where an opcode would be read; a byte
that repeats one of them or names a second segment clashes with it. -/
theorem refusedPrefixesAreRefused : Obligations.RefusedPrefixesAreRefused := by
  unfold Obligations.RefusedPrefixesAreRefused
  refine fun dflt ps b rest admitted => ⟨fun lock => ?refused, fun p byte again => ?clash⟩
  case refused =>
    have refused : refusedPrefix b = true := by simpa [refusedPrefix, or_assoc] using lock
    rw [decode_prefixes_stops admitted dflt (prefixOf_eq_none_of_refused refused), decodeBody, takeOpcode_refused rest refused]
    rfl
  case clash =>
    have clash : p.clashes ps = true := by
      rw [Prefix.clashes_iff_group]
      obtain same | ⟨r, q, rfl, other⟩ := again
      · exact List.mem_map_of_mem same
      · exact List.mem_map.mpr ⟨.seg q, other, rfl⟩
    rw [byte, decode_prefixes_clash admitted dflt clash]

/-- Settles O5: the byte ends the admitted prefixes, and the opcode reader knows neither it nor a second opcode byte other than
the three. -/
theorem otherOpcodesAreNotInScope : Obligations.OtherOpcodesAreNotInScope := by
  unfold Obligations.OtherOpcodesAreNotInScope
  refine fun dflt ps b rest admitted => ⟨fun noPrefix notF0 notF2 notF3 not0F => ?first, fun not74 not75 not76 => ?second⟩
  case first =>
    have stops : prefixOf b = none :=
      Option.eq_none_iff_forall_ne_some.mpr fun p h => noPrefix p (toByte_of_prefixOf h).symm
    have notRefused : refusedPrefix b = false := by simp [refusedPrefix, notF0, notF2, notF3]
    rw [decode_prefixes_stops admitted dflt stops, decodeBody, takeOpcode_other rest notRefused not0F]
    rfl
  case second =>
    have unknown : laneOf b = none := by simp [laneOf, not74, not75, not76]
    rw [decode_prefixes_stops admitted dflt prefixOf_escape, decodeBody, takeOpcode_escape, unknown]
    rfl

/-- Settles O6: after the opcode the ModRM byte is split into its fields and every combination of `mod` and `rm` has a source
operand. -/
theorem everyModRMDecodesForEveryRow : Obligations.EveryModRMDecodesForEveryRow := by
  unfold Obligations.EveryModRMDecodesForEveryRow
  intro dflt ps k mod reg rm tail admitted enough
  obtain ⟨w, opcode, bits⟩ := exists_lane k
  obtain ⟨o, rest, operand, register, memory⟩ := exists_takeOperand (addressSize dflt ps) mod rm enough
  refine ⟨Instr.form w (decide (.opSize ∈ ps)) ps reg o, rest, ?decodes, by simpa using bits, by simp, by simp, by simp,
    by simpa using register, by simpa using memory⟩
  rw [decode_prefixes_stops admitted dflt prefixOf_escape, opcode]
  show decodeBody dflt ps (0x0F#8 :: w.opcode :: Fields.toByte { top := mod, mid := reg, low := rm } :: tail) = _
  rw [decodeBody_opcode, operand]
  rfl

/-- Settles O8: with the rows that have no base taken apart, the operand is one with a base and a displacement of four bytes at
most. -/
theorem effectiveAddress32FollowsTheTables : Obligations.EffectiveAddress32FollowsTheTables := by
  unfold Obligations.EffectiveAddress32FollowsTheTables
  refine ⟨fun size mod rm bs rest m memory h => ?sibByte, fun s mod rm b0 b1 b2 b3 rest memory noSib => ?base,
    fun s mod scale index base b0 b1 b2 b3 rest memory => ?sib⟩
  case sibByte =>
    obtain ⟨wf, size, -, rm, -⟩ := takeMem_eq_ok memory h
    rw [sibBytes_eq_one_iff wf, size, rm]
  case base =>
    by_cases bare : mod = 0 ∧ rm = 5
    · refine ⟨.abs32 (b3 ++ b2 ++ b1 ++ b0), rest, ?_, by simp [effectiveAddress, bare], by simp [bare]⟩
      simp [takeMem32, bare, takeWord32_four, Parsed.andThen]
    · obtain ⟨d, r, read, after, value⟩ := takeDisp32_value memory b0 b1 b2 b3 rest
      refine ⟨.base32 rm d, r, by simp [takeMem32, noSib, bare, read, Parsed.andThen], ?_, by simp [after, bare]⟩
      simp [effectiveAddress, value, bare]
  case sib =>
    have scaled : indexTerm s scale (indexOf index) =
        if index = 4 then 0#32 else s.gpr32 index * BitVec.ofNat 32 (2 ^ scale.val) := by
      unfold indexOf
      split
      · rfl
      · have power : BitVec.twoPow 32 scale.val = BitVec.ofNat 32 (2 ^ scale.val) :=
          BitVec.eq_of_toNat_eq (BitVec.toNat_twoPow ..)
        simp only [indexTerm, BitVec.shiftLeft_eq_mul_twoPow, power]
    have read := takeSib_cons mod (Fields.toByte ⟨scale, index, base⟩) (b0 :: b1 :: b2 :: b3 :: rest)
    rw [Fields.ofByte_toByte] at read
    by_cases noBase : mod = 0 ∧ base = 5
    · refine ⟨.sibNoBase scale (indexOf index) (b3 ++ b2 ++ b1 ++ b0), rest, ?_, ?_, by simp [noBase]⟩
      · rw [if_pos noBase, takeWord32_four] at read
        exact read
      · simp [effectiveAddress, scaled, noBase]
    · obtain ⟨d, r, disp, after, value⟩ := takeDisp32_value memory b0 b1 b2 b3 rest
      refine ⟨.sib scale (indexOf index) base d, r, ?_, ?_, by simp [after, noBase]⟩
      · rw [if_neg noBase, disp] at read
        exact read
      · simp [effectiveAddress, scaled, value, noBase, and_comm (a := base = 5)]

/-- Settles O9: the row `mod` 0, `rm` 6 is a displacement alone; in every other the registers of the row are summed. -/
theorem effectiveAddress16FollowsTheTables : Obligations.EffectiveAddress16FollowsTheTables := by
  unfold Obligations.EffectiveAddress16FollowsTheTables
  intro s mod rm b0 b1 rest memory bx bp si di registers long
  have sum : registers = if mod = 0 ∧ rm = 6 then 0#16 else baseSum16 s rm := by
    fin_cases rm <;> simp [registers, baseSum16, bx, bp, si, di, State.gpr16]
  by_cases bare : mod = 0 ∧ rm = 6
  · refine ⟨.abs16 (b1 ++ b0), rest, ?_, rfl, by simp [effectiveAddress, sum, long, bare], by simp [long, bare]⟩
    simp [takeMem16, bare, takeWord16_two, Parsed.andThen]
  · obtain ⟨d, r, read, after, value⟩ := takeDisp16_value memory b0 b1 rest
    refine ⟨.base16 rm d, r, by simp [takeMem16, bare, read, Parsed.andThen], rfl, ?_, by simp [after, long, bare]⟩
    simp [effectiveAddress, sum, value, long, bare]

/-- Settles O10: the one among the prefixes that names a segment decides; without one the operand's own form does, whose base is
the `rm` or the base field that it was read from. -/
theorem operandSegmentFollowsTheRule : Obligations.OperandSegmentFollowsTheRule := by
  unfold Obligations.OperandSegmentFollowsTheRule
  refine fun size mod rm bs rest m ps memory h admitted => ⟨fun r named => ?byPrefix, fun unnamed => ?byBase⟩
  case byPrefix => simp [operandSegment, segmentPrefix_eq_some (groups_nodup admitted) named]
  case byBase =>
    simp only [operandSegment, segmentPrefix_eq_none unnamed, Option.getD_none]
    obtain ⟨wf, rfl, rfl, rfl, rfl⟩ := takeMem_eq_ok memory h
    cases m with
    | abs32 d | abs16 d => simp [defaultSegment, MemOperand.size, Operand.rm, Operand.mod]
    | base32 b d =>
      have own := MemOperand.wf_base32.mp wf
      cases d <;> simp_all [defaultSegment, MemOperand.size, Operand.rm, Operand.mod, Disp32.mod]
    | base16 r d =>
      have own := MemOperand.wf_base16.mp wf
      cases d <;> simp_all [defaultSegment, MemOperand.size, Operand.rm, Operand.mod, Disp16.mod]
    | sib sc x b d =>
      have own := (MemOperand.wf_sib.mp wf).2
      cases d <;> simp_all [defaultSegment, MemOperand.size, Operand.rm, Operand.mod, Disp32.mod, Operand.tail,
        Fields.ofByte_toByte]
    | sibNoBase sc x d =>
      simp [defaultSegment, MemOperand.size, Operand.rm, Operand.mod, Operand.tail, Fields.ofByte_toByte]

/-- Settles O11: the operand of a decoded instruction has the address size that the byte 67 and the default give. -/
theorem addressSizeFollowsModeAndPrefix : Obligations.AddressSizeFollowsModeAndPrefix := by
  unfold Obligations.AddressSizeFollowsModeAndPrefix
  intro s bs rest i m h src
  obtain ⟨-, -, operand⟩ := Instr.wf_iff.mp (decode_eq_ok_iff.mp h).1
  have size : m.size = addressSize s.defaultAddrSize i.prefixes := by
    simp only [src, Operand.wf, Bool.and_eq_true, beq_iff_eq] at operand
    exact operand.2
  refine ⟨fun mode => ?_, fun mode without => ?_, fun mode withPrefix => ?_⟩
  · have dflt : s.defaultAddrSize = .a16 := by
      cases h : s.mode <;> simp_all [State.defaultAddrSize]
    rw [size, addressSize, dflt]
    rfl
  · simp [size, addressSize, without, State.defaultAddrSize, mode]
  · rw [size, addressSize, if_pos withPrefix, State.defaultAddrSize, mode]
    cases s.plat.codeAddrSize <;> decide

end Sys2Proof
end

section
/-! The fetch: bytes that stand where it reads them, one after the other; what the decoder refuses is settled by a head of the
bytes, and bytes that only end too early are fewer than the longest instruction has. So the fetch answers exactly the
well-formed instruction whose encoding stands at `EIP` (spec/20_memory.md R48, spec/30_encoding.md R62, R63). -/

namespace Sys2Proof

/-! ### What the decoder does not accept -/

theorem Parsed.andThen_ok_eq_bad {α β : Type} {p : Parsed α} {g : α → β} {e : DecodeError} :
    (p.andThen fun v rest => .ok (g v) rest) = .bad e ↔ p = .bad e := by
  cases p <;> simp [Parsed.andThen]

theorem takeWord16_eq_bad {bs : List Byte} {e : DecodeError} (h : takeWord16 bs = .bad e) : e = .truncated := by
  unfold takeWord16 at h
  split at h <;> simp_all

theorem takeWord32_eq_bad {bs : List Byte} {e : DecodeError} (h : takeWord32 bs = .bad e) : e = .truncated := by
  unfold takeWord32 at h
  split at h <;> simp_all

theorem takeByte_eq_bad {bs : List Byte} {e : DecodeError} (h : takeByte bs = .bad e) : e = .truncated := by
  cases bs <;> simp_all [takeByte]

theorem takeDisp32_eq_bad {mod : Fin 4} {bs : List Byte} {e : DecodeError} (h : takeDisp32 mod bs = .bad e) :
    e = .truncated := by
  unfold takeDisp32 at h
  split_ifs at h
  · exact takeByte_eq_bad (Parsed.andThen_ok_eq_bad.mp h)
  · exact takeWord32_eq_bad (Parsed.andThen_ok_eq_bad.mp h)

theorem takeDisp16_eq_bad {mod : Fin 4} {bs : List Byte} {e : DecodeError} (h : takeDisp16 mod bs = .bad e) :
    e = .truncated := by
  unfold takeDisp16 at h
  split_ifs at h
  · exact takeByte_eq_bad (Parsed.andThen_ok_eq_bad.mp h)
  · exact takeWord16_eq_bad (Parsed.andThen_ok_eq_bad.mp h)

theorem takeSib_eq_bad {mod : Fin 4} {bs : List Byte} {e : DecodeError} (h : takeSib mod bs = .bad e) :
    e = .truncated := by
  cases bs with
  | nil => exact (Parsed.bad.inj h).symm
  | cons b bs =>
    rw [takeSib_cons] at h
    split_ifs at h
    · exact takeWord32_eq_bad (Parsed.andThen_ok_eq_bad.mp h)
    · exact takeDisp32_eq_bad (Parsed.andThen_ok_eq_bad.mp h)

theorem takeMem_eq_bad {size : AddrSize} {mod : Fin 4} {rm : RegNum} {bs : List Byte} {e : DecodeError}
    (h : takeMem size mod rm bs = .bad e) : e = .truncated := by
  cases size with
  | a32 =>
    simp only [takeMem, takeMem32] at h
    split_ifs at h
    · exact takeSib_eq_bad h
    · exact takeWord32_eq_bad (Parsed.andThen_ok_eq_bad.mp h)
    · exact takeDisp32_eq_bad (Parsed.andThen_ok_eq_bad.mp h)
  | a16 =>
    simp only [takeMem, takeMem16] at h
    split_ifs at h
    · exact takeWord16_eq_bad (Parsed.andThen_ok_eq_bad.mp h)
    · exact takeDisp16_eq_bad (Parsed.andThen_ok_eq_bad.mp h)

/-- An operand is never refused but for want of bytes, and five are enough. -/
theorem takeOperand_eq_bad {size : AddrSize} {mod : Fin 4} {rm : RegNum} {bs : List Byte} {e : DecodeError}
    (h : takeOperand size mod rm bs = .bad e) : e = .truncated ∧ bs.length < 5 := by
  constructor
  · unfold takeOperand at h
    split_ifs at h
    exact takeMem_eq_bad (Parsed.andThen_ok_eq_bad.mp h)
  · by_contra enough
    obtain ⟨o, rest, read, -⟩ := exists_takeOperand size mod rm (not_lt.mp enough)
    simp [read] at h

/-- What the bytes after the prefixes may lack: they end too early, or their first byte or their first two decide that they are
refused, whatever follows. -/
theorem decodeBody_eq_bad_cases {dflt : AddrSize} {ps : List Prefix} {b : Byte} {bs : List Byte} {e : DecodeError}
    (h : decodeBody dflt ps (b :: bs) = .bad e) :
    e = .truncated ∧ bs.length < 7 ∨
      e ≠ .truncated ∧ ∃ head rest, bs = head ++ rest ∧ head.length ≤ 1 ∧
        ∀ more, decodeBody dflt ps (b :: head ++ more) = .bad e := by
  by_cases refused : refusedPrefix b = true
  · have settled (more) : decodeBody dflt ps (b :: more) = .bad .prefixNotAdmitted := by
      rw [decodeBody, takeOpcode_refused more refused]; rfl
    obtain rfl := Parsed.bad.inj ((settled bs).symm.trans h)
    exact .inr ⟨by simp, [], bs, rfl, by simp, settled⟩
  rw [Bool.not_eq_true] at refused
  by_cases other : b = 0x0F#8
  case neg =>
    have settled (more) : decodeBody dflt ps (b :: more) = .bad .notInScope := by
      rw [decodeBody, takeOpcode_other more refused other]; rfl
    obtain rfl := Parsed.bad.inj ((settled bs).symm.trans h)
    exact .inr ⟨by simp, [], bs, rfl, by simp, settled⟩
  subst other
  match bs with
  | [] => exact .inl ⟨(Parsed.bad.inj h).symm, by simp⟩
  | op :: rest =>
    cases lane : laneOf op with
    | none =>
      have settled (more) : decodeBody dflt ps (0x0F#8 :: op :: more) = .bad .notInScope := by
        rw [decodeBody, takeOpcode_escape, lane]; rfl
      obtain rfl := Parsed.bad.inj ((settled rest).symm.trans h)
      exact .inr ⟨by simp, [op], rest, rfl, by simp, settled⟩
    | some w =>
      obtain rfl := opcode_of_laneOf lane
      match rest with
      | [] =>
        rw [decodeBody, takeOpcode_escape, lane] at h
        exact .inl ⟨(Parsed.bad.inj h).symm, by simp⟩
      | modRM :: tail =>
        rw [← Fields.toByte_ofByte modRM, decodeBody_opcode, Parsed.andThen_ok_eq_bad] at h
        obtain ⟨truncated, short⟩ := takeOperand_eq_bad h
        exact .inl ⟨truncated, by simp only [List.length_cons]; omega⟩

/-- What bytes that are no instruction lack: they end before the longest instruction would, or a head of them decides that they
are refused, whatever follows. -/
theorem decode_eq_bad_cases {dflt : AddrSize} {bs : List Byte} {e : DecodeError} (h : decode dflt bs = .bad e) :
    e = .truncated ∧ bs.length < Config.maxLength ∨
      e ≠ .truncated ∧ ∃ head rest, bs = head ++ rest ∧ head.length ≤ Config.maxLength ∧
        ∀ more, decode dflt (head ++ more) = .bad e := by
  cases prefixSplit [] bs with
  | ends ps admitted =>
    have few := length_le_three_of_admitted admitted
    rw [decode_prefixes_ends admitted] at h
    exact .inl ⟨(Parsed.bad.inj h).symm, by rw [List.length_map, Config.maxLength]; omega⟩
  | clash ps admitted p rest clash =>
    have few := length_le_three_of_admitted admitted
    have settled (more) := decode_prefixes_clash admitted dflt clash more
    obtain rfl := Parsed.bad.inj ((settled rest).symm.trans h)
    refine .inr ⟨by simp, ps.map Prefix.toByte ++ [p.toByte], rest, by simp, ?_, fun more => by simpa using settled more⟩
    simp only [List.length_append, List.length_map, List.length_singleton, Config.maxLength]
    omega
  | stops ps admitted b rest noPrefix =>
    have few := length_le_three_of_admitted admitted
    rw [decode_prefixes_stops admitted dflt noPrefix] at h
    obtain ⟨truncated, short⟩ | ⟨named, head, tail, rfl, short, settled⟩ := decodeBody_eq_bad_cases h
    · refine .inl ⟨truncated, ?_⟩
      simp only [List.length_append, List.length_map, List.length_cons, Config.maxLength]
      omega
    · refine .inr ⟨named, ps.map Prefix.toByte ++ b :: head, tail, by simp, ?_, fun more => ?_⟩
      · simp only [List.length_append, List.length_map, List.length_cons, Config.maxLength]
        omega
      · rw [List.append_assoc, List.cons_append, decode_prefixes_stops admitted dflt noPrefix]
        exact settled more

end Sys2Proof

namespace Sys2Proof.Machine

/-! ### Bytes where the fetch reads them -/

/-- These bytes stand where the fetch reads byte `k` of the instruction and the bytes after it. -/
def FetchedFrom (s : State) : Nat → List Byte → Prop
  | _, [] => True
  | k, b :: bs => fetchByte s k = .next b ∧ FetchedFrom s (k + 1) bs

theorem fetchedFrom_iff {s : State} {k : Nat} {bs : List Byte} :
    FetchedFrom s k bs ↔ ∀ j (h : j < bs.length), fetchByte s (k + j) = .next bs[j] := by
  induction bs generalizing k with
  | nil => simp [FetchedFrom]
  | cons b bs ih =>
    rw [FetchedFrom, ih]
    constructor
    · rintro ⟨first, later⟩ j h
      cases j with
      | zero => exact first
      | succ j =>
        have byte := later j (Nat.lt_of_succ_lt_succ h)
        rwa [Nat.add_right_comm] at byte
    · refine fun all => ⟨all 0 (Nat.succ_pos _), fun j h => ?_⟩
      rw [Nat.add_right_comm]
      exact all (j + 1) (Nat.succ_lt_succ h)

/-- From byte 0, as the statements about the fetch put it. -/
theorem fetchedFrom_zero_iff {s : State} {bs : List Byte} :
    FetchedFrom s 0 bs ↔ ∀ k (h : k < bs.length), fetchByte s k = .next bs[k] := by
  simp [fetchedFrom_iff]

theorem Program.bytes_singleton (i : Instr) : Program.bytes [i] = encode i := List.flatMap_singleton ..

theorem placedAtEip_iff {s : State} {p : Program} : PlacedAtEip s p ↔ FetchedFrom s 0 (Program.bytes p) :=
  fetchedFrom_zero_iff.symm

theorem fetchedFrom_append {s : State} {k : Nat} {xs ys : List Byte} :
    FetchedFrom s k (xs ++ ys) ↔ FetchedFrom s k xs ∧ FetchedFrom s (k + xs.length) ys := by
  induction xs generalizing k with
  | nil => simp [FetchedFrom]
  | cons x xs ih => simp [FetchedFrom, ih, and_assoc, Nat.add_assoc, Nat.add_comm 1]

theorem fetchedFrom_fetchBytes (s : State) (n k : Nat) : FetchedFrom s k (fetchBytes s n k).1 := by
  induction n generalizing k with
  | zero => trivial
  | succ n ih =>
    cases byte : fetchByte s k with
    | next b => simpa [fetchBytes, byte, FetchedFrom] using ih (k + 1)
    | fault e => simp [fetchBytes, byte, FetchedFrom]
    | refused r => simp [fetchBytes, byte, FetchedFrom]

/-- The fetch begins with bytes that stand where it reads them, and goes on after them. -/
theorem fetchBytes_of_fetchedFrom {s : State} {k : Nat} {bs : List Byte} (h : FetchedFrom s k bs) (n : Nat) :
    fetchBytes s (bs.length + n) k =
      (bs ++ (fetchBytes s n (k + bs.length)).1, (fetchBytes s n (k + bs.length)).2) := by
  induction bs generalizing k with
  | nil => simp
  | cons b bs ih =>
    obtain ⟨first, later⟩ := h
    rw [List.length_cons, Nat.add_right_comm, fetchBytes, first]
    simp only [ih later, List.cons_append, Nat.add_right_comm k 1, ← Nat.add_assoc]

/-- Bytes that stand at `EIP` head what the fetch hands to the decoder. -/
theorem exists_fetchBytes_eq_append {s : State} {bs : List Byte} (h : FetchedFrom s 0 bs)
    (fits : bs.length ≤ Config.maxLength) : ∃ more, (fetchBytes s Config.maxLength 0).1 = bs ++ more := by
  obtain ⟨n, eq⟩ := Nat.exists_eq_add_of_le fits
  rw [eq, fetchBytes_of_fetchedFrom h]
  exact ⟨_, rfl⟩

/-! ### What the fetch answers -/

/-- The fetch answers exactly the well-formed instruction whose encoding stands at `EIP`. -/
theorem fetchDecode_eq_next_iff {s : State} {i : Instr} :
    fetchDecode s = .next i ↔ i.wf s.defaultAddrSize = true ∧ PlacedAtEip s [i] := by
  rw [fetchDecode_eq_next, placedAtEip_iff, Program.bytes_singleton]
  constructor
  · rintro ⟨rest, read⟩
    obtain ⟨wf, bytes⟩ := decode_eq_ok_iff.mp read
    have fetched := fetchedFrom_fetchBytes s Config.maxLength 0
    rw [← bytes, fetchedFrom_append] at fetched
    exact ⟨wf, fetched.1⟩
  · rintro ⟨wf, placed⟩
    obtain ⟨more, fetched⟩ := exists_fetchBytes_eq_append placed (by rw [length_encode]; exact (Instr.length_bounds wf).2)
    exact ⟨more, by rw [fetched, decode_encode wf]⟩

/-- A step is the execution of the instruction that stands at `EIP`. -/
theorem step_of_placed {s : State} {i : Instr} (wf : i.wf s.defaultAddrSize = true) (placed : PlacedAtEip s [i]) :
    step s = exec i s := by
  simp [step, fetchDecode_eq_next_iff.mpr ⟨wf, placed⟩, andThen]

/-- An instruction stands at `EIP` when bytes do that decode to it. -/
theorem placed_of_decode {s : State} {bs rest : List Byte} {i : Instr} (fetched : FetchedFrom s 0 bs)
    (read : decode s.defaultAddrSize bs = .ok i rest) : i.wf s.defaultAddrSize = true ∧ PlacedAtEip s [i] := by
  obtain ⟨wf, rfl⟩ := decode_eq_ok_iff.mp read
  refine ⟨wf, ?_⟩
  rw [placedAtEip_iff, Program.bytes_singleton]
  exact (fetchedFrom_append.mp fetched).1

/-- Bytes that the decoder refuses by name are refused, whatever stands after them. -/
theorem decode_fetchBytes_of_refused {s : State} {bs : List Byte} {e : DecodeError} (fetched : FetchedFrom s 0 bs)
    (bad : decode s.defaultAddrSize bs = .bad e) (named : e ≠ .truncated) :
    decode s.defaultAddrSize (fetchBytes s Config.maxLength 0).1 = .bad e := by
  obtain ⟨truncated, -⟩ | ⟨-, head, rest, rfl, fits, settled⟩ := decode_eq_bad_cases bad
  · exact absurd truncated named
  · obtain ⟨more, eq⟩ := exists_fetchBytes_eq_append (fetchedFrom_append.mp fetched).1 fits
    rw [eq]
    exact settled more

/-- Bytes that end before the instruction does, with the byte after them refused, are all that the fetch reads; the step is
refused for that byte's reason. -/
theorem step_of_truncated {s : State} {bs : List Byte} {r : Refusal} (fetched : FetchedFrom s 0 bs)
    (bad : decode s.defaultAddrSize bs = .bad .truncated) (next : fetchByte s bs.length = .refused r) :
    step s = .refused r := by
  have short : bs.length < Config.maxLength := by
    obtain ⟨-, short⟩ | ⟨named, -⟩ := decode_eq_bad_cases bad
    · exact short
    · exact absurd rfl named
  obtain ⟨n, eq⟩ := Nat.exists_eq_add_of_lt short
  have all : fetchBytes s Config.maxLength 0 = (bs, some r) := by
    rw [eq, Nat.add_assoc, fetchBytes_of_fetchedFrom fetched, Nat.zero_add]
    simp [fetchBytes, next]
  simp [step, fetchDecode, all, bad, andThen]

/-! ### A table word placed at reset -/

theorem length_bigEndianBytes (n v : Nat) : (bigEndianBytes n v).length = n := by
  induction n with
  | zero => rfl
  | succ n ih => simp [bigEndianBytes, ih]

theorem length_tableWordBytes {nbits : Nat} (w : Nat) (h : nbits ≤ 88) : (tableWordBytes nbits w).length = 11 := by
  simp only [tableWordBytes, List.length_append, length_bigEndianBytes, List.length_replicate, Config.maxLength]
  omega

theorem fetchByte_eq_next {s : State} {k p : Nat} (top : ¬ s.offsetTop < s.eip.toNat + k)
    (limit : ¬ (s.segment .cs).holds (s.eip.toNat + k) = false)
    (translated : s.translate (s.linear .cs s.eip k) .fetch = .phys p) : fetchByte s k = .next (s.mem.read p) := by
  rw [fetchByte, if_neg top, if_neg limit, translated]

/-- Bytes placed at consecutive physical addresses from `a` on: below `a` memory is as before, and from `a` on the bytes stand.
-/
theorem read_placeBytes {s : State} {k a : Nat} {bs : List Byte} {m : Memory} (wf : m.wf = true)
    (consecutive : ∀ j < bs.length, s.translate (s.linear .cs s.eip (k + j)) .fetch = .phys (a + j)) :
    (∀ x < a, (placeBytes s k bs m).read x = m.read x) ∧
      ∀ j (h : j < bs.length), (placeBytes s k bs m).read (a + j) = bs[j] := by
  induction bs generalizing k a m with
  | nil => simp [placeBytes]
  | cons b bs ih =>
    have first : s.translate (s.linear .cs s.eip k) .fetch = .phys a := consecutive 0 (Nat.succ_pos _)
    have later : ∀ j < bs.length, s.translate (s.linear .cs s.eip (k + 1 + j)) .fetch = .phys (a + 1 + j) := by
      intro j h
      rw [Nat.add_right_comm k, Nat.add_right_comm a]
      exact consecutive (j + 1) (Nat.succ_lt_succ h)
    obtain ⟨below, standing⟩ := ih (Memory.wf_write a b wf) later
    simp only [placeBytes, first]
    refine ⟨fun x hx => ?_, fun j h => ?_⟩
    · rw [below x (by omega), Memory.read_write a x b wf, if_neg (by omega)]
    · cases j with
      | zero => exact (below a (by omega)).trans (by simp [Memory.read_write a a b wf])
      | succ j =>
        have byte := standing j (Nat.lt_of_succ_lt_succ h)
        rwa [Nat.add_right_comm] at byte

/-- In Real mode, from the reset `EIP`, the fetch reads consecutive bytes from linear 000FFFF0 on (R35, R37). -/
theorem translate_reset_fetch {k : Nat} (h : k < 16) :
    State.reset.translate (State.reset.linear .cs State.reset.eip k) .fetch = .phys (0xFFFF0 + k) := by
  have all : ∀ k < 16,
      State.reset.translate (State.reset.linear .cs State.reset.eip k) .fetch = .phys (0xFFFF0 + k) := by decide
  exact all k h

/-- The first sixteen bytes from the reset `EIP` on are inside the offset space and the CS limit. -/
theorem fetchByte_of_reset_but_memory {k : Nat} (h : k < 16) (m : Memory) :
    fetchByte { State.reset with mem := m } k = .next (m.read (0xFFFF0 + k)) := by
  have inside : ∀ k < 16, ¬ State.reset.offsetTop < State.reset.eip.toNat + k ∧
      ¬ (State.reset.segment .cs).holds (State.reset.eip.toNat + k) = false := by decide
  obtain ⟨top, limit⟩ := inside k h
  exact fetchByte_eq_next (s := { State.reset with mem := m }) top limit (translate_reset_fetch h)

end Sys2Proof.Machine
end

section
/-! Settled statements of the fetch and the step (spec/20_memory.md R48, spec/30_encoding.md R63, R67). -/

namespace Sys2Proof
open Machine

/-- Settles O12: the bytes head with the encoding of a well-formed instruction, which therefore stands at `EIP`. -/
theorem stepRunsTheDecodedInstruction : Obligations.StepRunsTheDecodedInstruction := by
  unfold Obligations.StepRunsTheDecodedInstruction
  intro s bs rest i fetched read
  obtain ⟨wf, placed⟩ := placed_of_decode (fetchedFrom_zero_iff.mpr fetched) read
  exact step_of_placed wf placed

/-- Settles O13: bytes that end before the instruction does are fewer than the fetch asks for, so the byte after them is looked
at, and it is refused for the reason stated. -/
theorem unfetchableInstructionIsRefused : Obligations.UnfetchableInstructionIsRefused := by
  unfold Obligations.UnfetchableInstructionIsRefused
  refine fun s bs fetched bad => ⟨fun past => ?wrap, fun inside outside => ?fault⟩
  case wrap => exact step_of_truncated (fetchedFrom_zero_iff.mpr fetched) bad (by simp [fetchByte, past])
  case fault =>
    refine step_of_truncated (fetchedFrom_zero_iff.mpr fetched) bad ?_
    rw [fetchByte, if_neg (not_lt.mpr inside)]
    by_cases limit : (s.segment .cs).holds (s.eip.toNat + bs.length) = false
    · rw [if_pos limit]
    · obtain ⟨code, fault⟩ := outside.resolve_left limit
      rw [if_neg limit, State.linear, fault]

/-- Settles O14: a head of the bytes decides the decoder's refusal, and the fetch reads that head, whatever comes of the bytes
after it. -/
theorem undecodableBytesAreRefused : Obligations.UndecodableBytesAreRefused := by
  unfold Obligations.UndecodableBytesAreRefused
  intro s bs fetched
  have refused {e} := decode_fetchBytes_of_refused (e := e) (fetchedFrom_zero_iff.mpr fetched)
  refine ⟨fun bad => ?_, fun bad => ?_⟩
  · simp [step, fetchDecode, refused bad (by simp), andThen]
  · simp [step, fetchDecode, refused bad (by simp), andThen]

/-- Settles O15: the word's bytes are placed at the consecutive physical addresses that the fetch reads after reset. -/
theorem placedTableWordRunsAfterReset : Obligations.PlacedTableWordRunsAfterReset := by
  unfold Obligations.PlacedTableWordRunsAfterReset
  intro nbits w i size word
  have eleven := length_tableWordBytes w size
  obtain ⟨-, standing⟩ := read_placeBytes (s := State.reset) (k := 0) (a := 0xFFFF0) (bs := tableWordBytes nbits w)
    wf_reset fun j h => by rw [Nat.zero_add]; exact translate_reset_fetch (by omega)
  have fetched : FetchedFrom (State.reset.withFetchWord nbits w) 0 (tableWordBytes nbits w) := by
    refine fetchedFrom_zero_iff.mpr fun k h => ?_
    rw [State.withFetchWord, fetchByte_of_reset_but_memory (by omega), standing k h]
  unfold decodeTableWord at word
  split at word
  · next j rest read =>
    obtain rfl := Option.some.inj word
    obtain ⟨wf, placed⟩ := placed_of_decode fetched read
    exact step_of_placed wf placed
  · exact absurd word (by simp)

end Sys2Proof
end

section
/-! The lane function's laws from its lanes (spec/40_pcmpeq.md R71), lanes made of narrower ones, and the bytes of a
little-endian number (spec/20_memory.md R30). -/

namespace Sys2Proof.Machine

/-! ### Lanes of lanes -/

/-- A lane is its upper half lane before its lower one. -/
theorem laneAt_double {N : Nat} (w j : Nat) (v : BitVec N) :
    laneAt (w + w) j v = laneAt w (2 * j + 1) v ++ laneAt w (2 * j) v := by
  have start : w * (2 * j) = (w + w) * j := by ring
  rw [laneAt, laneAt, laneAt, BitVec.extractLsb'_append_extractLsb'_eq_extractLsb' (by ring), start]

/-- A lane is its four quarter lanes, the uppermost first. -/
theorem laneAt_quadruple {N : Nat} (w j : Nat) (v : BitVec N) :
    laneAt (w + w + w + w) j v =
      laneAt w (4 * j + 3) v ++ laneAt w (4 * j + 2) v ++ laneAt w (4 * j + 1) v ++ laneAt w (4 * j) v := by
  have start : w * (4 * j) = (w + w + w + w) * j := by ring
  rw [laneAt, laneAt, laneAt, laneAt, laneAt, BitVec.extractLsb'_append_extractLsb'_eq_extractLsb' (by ring),
    BitVec.extractLsb'_append_extractLsb'_eq_extractLsb' (by ring),
    BitVec.extractLsb'_append_extractLsb'_eq_extractLsb' (by ring), start]

theorem append_eq_append_iff {u w : Nat} {x x' : BitVec u} {y y' : BitVec w} :
    x ++ y = x' ++ y' ↔ x = x' ∧ y = y' := by
  refine ⟨fun h => ⟨?_, ?_⟩, fun ⟨upper, lower⟩ => by rw [upper, lower]⟩
  · simpa [BitVec.extractLsb'_append_eq_left] using congrArg (BitVec.extractLsb' w u) h
  · simpa [BitVec.extractLsb'_append_eq_right] using congrArg (BitVec.extractLsb' 0 w) h

/-- A lane of twice the width is equal exactly when both half lanes are (R83). -/
theorem laneAt_double_eq_iff {N : Nat} (w j : Nat) (d s : BitVec N) :
    laneAt (w + w) j d = laneAt (w + w) j s ↔
      laneAt w (2 * j) d = laneAt w (2 * j) s ∧ laneAt w (2 * j + 1) d = laneAt w (2 * j + 1) s := by
  rw [laneAt_double, laneAt_double, append_eq_append_iff, and_comm]

/-- A lane of a part of a value is a lane of the value. -/
theorem laneAt_extractLsb' {N : Nat} {w i off len : Nat} (v : BitVec N) (inside : w * i + w ≤ len) :
    laneAt w i (v.extractLsb' (w * off) len) = laneAt w (off + i) v := by
  apply BitVec.eq_of_getLsbD_eq
  intro b hb
  have : w * i + b < len := by omega
  simp [laneAt, hb, this, Nat.mul_add, Nat.add_assoc]

/-! ### The lane function (R71, R82) -/

theorem zero_ne_allOnes {w : Nat} (hw : 0 < w) : 0#w ≠ BitVec.allOnes w := by
  intro h
  have := congrArg (fun v => v.getLsbD 0) h
  simp [hw] at this

theorem laneAt_zero {N : Nat} (w i : Nat) : laneAt w i (0#N) = 0#w := by
  simp [laneAt]

theorem laneAt_allOnes {N w i : Nat} (inside : w * i + w ≤ N) : laneAt w i (BitVec.allOnes N) = BitVec.allOnes w := by
  apply BitVec.eq_of_getLsbD_eq
  intro b hb
  have : w * i + b < N := by omega
  simp [laneAt, hb, this]

theorem laneResult_comm {N : Nat} (w i : Nat) (d s : BitVec N) : laneResult w i d s = laneResult w i s d := by
  simp [laneResult, eq_comm]

theorem laneResult_eq_allOnes_iff {N : Nat} {w : Nat} (hw : 0 < w) (i : Nat) (d s : BitVec N) :
    laneResult w i d s = BitVec.allOnes w ↔ laneAt w i d = laneAt w i s := by
  unfold laneResult
  split <;> simp_all [zero_ne_allOnes hw]

theorem laneResult_eq_zero_iff {N : Nat} {w : Nat} (hw : 0 < w) (i : Nat) (d s : BitVec N) :
    laneResult w i d s = 0#w ↔ laneAt w i d ≠ laneAt w i s := by
  unfold laneResult
  split <;> simp_all [(zero_ne_allOnes hw).symm]

/-- A lane of twice the width is all 1s exactly when both half lanes are (R83). -/
theorem laneResult_double {N : Nat} {w : Nat} (hw : 0 < w) (j : Nat) (d s : BitVec N) :
    laneResult (w + w) j d s =
      if laneResult w (2 * j) d s = BitVec.allOnes w ∧ laneResult w (2 * j + 1) d s = BitVec.allOnes w
      then BitVec.allOnes (w + w) else 0#(w + w) := by
  refine if_congr ?_ rfl rfl
  rw [laneAt_double_eq_iff, laneResult_eq_allOnes_iff hw, laneResult_eq_allOnes_iff hw]

theorem lane_inside {N w i : Nat} (h : i < N / w) : w * i + w ≤ N :=
  calc w * i + w = w * (i + 1) := (Nat.mul_succ w i).symm
    _ ≤ w * (N / w) := Nat.mul_le_mul_left w h
    _ ≤ N := Nat.mul_div_le N w

section Filled
variable {N : Nat} {w : LaneWidth} (fills : w.bits * (N / w.bits) = N)
include fills

theorem pcmpeq_comm (d s : BitVec N) : pcmpeq w d s = pcmpeq w s d := by
  refine eq_of_laneAt_eq w fills fun i h => ?_
  rw [laneAt_pcmpeq w d s h, laneAt_pcmpeq w s d h, laneResult_comm]

theorem pcmpeq_eq_allOnes_iff (d s : BitVec N) : pcmpeq w d s = BitVec.allOnes N ↔ d = s := by
  have lanes (i) (h : i < N / w.bits) :
      laneAt w.bits i (pcmpeq w d s) = laneAt w.bits i (BitVec.allOnes N) ↔ laneAt w.bits i d = laneAt w.bits i s := by
    rw [laneAt_pcmpeq w d s h, laneAt_allOnes (lane_inside h), laneResult_eq_allOnes_iff (laneBits_pos w)]
  constructor
  · exact fun h => eq_of_laneAt_eq w fills fun i hi => (lanes i hi).mp (by rw [h])
  · exact fun h => eq_of_laneAt_eq w fills fun i hi => (lanes i hi).mpr (by rw [h])

theorem pcmpeq_self (d : BitVec N) : pcmpeq w d d = BitVec.allOnes N := (pcmpeq_eq_allOnes_iff fills d d).mpr rfl

theorem pcmpeq_eq_zero_iff (d s : BitVec N) :
    pcmpeq w d s = 0#N ↔ ∀ i < N / w.bits, laneAt w.bits i d ≠ laneAt w.bits i s := by
  have lanes (i) (h : i < N / w.bits) :
      laneAt w.bits i (pcmpeq w d s) = laneAt w.bits i (0#N) ↔ laneAt w.bits i d ≠ laneAt w.bits i s := by
    rw [laneAt_pcmpeq w d s h, laneAt_zero, laneResult_eq_zero_iff (laneBits_pos w)]
  constructor
  · exact fun h i hi => (lanes i hi).mp (by rw [h])
  · exact fun h => eq_of_laneAt_eq w fills fun i hi => (lanes i hi).mpr (h i hi)

end Filled

theorem lanes_fill {N : Nat} (size : N = 64 ∨ N = 128) (w : LaneWidth) : w.bits * (N / w.bits) = N := by
  obtain rfl | rfl := size
  · exact lanes_fill64 w
  · exact lanes_fill128 w

/-- The part of a 128-bit comparison from lane `off` on is the comparison of the operands' parts (R82). -/
theorem extractLsb'_pcmpeq (w : LaneWidth) {off : Nat} (inside : off + 64 / w.bits ≤ 128 / w.bits) (d s : Word128) :
    (pcmpeq w d s).extractLsb' (w.bits * off) 64 =
      pcmpeq w (d.extractLsb' (w.bits * off) 64) (s.extractLsb' (w.bits * off) 64) := by
  refine eq_of_laneAt_eq w (lanes_fill64 w) fun i h => ?_
  have lane (v : Word128) := laneAt_extractLsb' (off := off) v (lane_inside h)
  rw [laneAt_pcmpeq w _ _ h, lane, laneAt_pcmpeq w d s (by omega), laneResult, laneResult, lane, lane]

/-! ### Little-endian bytes (R30) -/

theorem leNat_div_mod {bs : List Byte} {k : Nat} (h : k < bs.length) : leNat bs / 256 ^ k % 256 = bs[k].toNat := by
  induction bs generalizing k with
  | nil => simp at h
  | cons b bs ih =>
    have hb := b.isLt
    cases k with
    | zero => simp [leNat]; omega
    | succ k =>
      have tail : (b.toNat + 256 * leNat bs) / 256 = leNat bs := by omega
      rw [leNat, Nat.pow_succ', ← Nat.div_div_eq_div_mul, tail]
      exact ih (Nat.lt_of_succ_lt_succ h)

/-- Byte lane `k` of a little-endian number is its byte `k`. -/
theorem laneAt_ofNat_leNat {n k : Nat} {bs : List Byte} (length : bs.length = n) (h : k < bs.length) :
    laneAt 8 k (BitVec.ofNat (8 * n) (leNat bs)) = bs[k] := by
  apply BitVec.eq_of_toNat_eq
  have fits : 256 ^ bs.length ≤ 2 ^ (8 * n) := by rw [length, Nat.pow_mul]
  rw [laneAt, BitVec.extractLsb'_toNat, toNat_ofNat_leNat fits, Nat.shiftRight_eq_div_pow, Nat.pow_mul]
  exact leNat_div_mod h

theorem laneAt_ofNat_leNat_map {n k : Nat} (f : Nat → Byte) (h : k < n) :
    laneAt 8 k (BitVec.ofNat (8 * n) (leNat ((List.range n).map f))) = f k := by
  rw [laneAt_ofNat_leNat (by simp) (by simpa using h)]
  simp

theorem laneAt_memRead (s : State) (addr : Nat) {n k : Nat} (h : k < n) :
    laneAt 8 k (s.memRead addr n) = s.mem.read (addr + k) := laneAt_ofNat_leNat_map _ h

theorem laneAt_operandValue (s : State) (seg : SegReg) (ea : Word32) {n k : Nat} (h : k < n) :
    laneAt 8 k (operandValue s seg ea n) = operandByte s seg ea k := laneAt_ofNat_leNat_map _ h

/-! ### Linear addresses (R35) -/

theorem linear_eq_ofNat (s : State) (seg : SegReg) (ea : Word32) (k : Nat) :
    s.linear seg ea k = BitVec.ofNat 32 ((s.segBase seg).toNat + ea.toNat + k) := by
  apply BitVec.eq_of_toNat_eq
  simp [State.linear]

theorem toNat_linear (s : State) (seg : SegReg) (ea : Word32) (k : Nat) :
    (s.linear seg ea k).toNat = ((s.segBase seg).toNat + ea.toNat + k) % 2 ^ 32 := by
  rw [linear_eq_ofNat, BitVec.toNat_ofNat]

/-- Outside Protected mode the bytes of an operand inside its limit have consecutive linear addresses: no sum wraps. -/
theorem toNat_linear_of_inside {s : State} (mode : s.mode ≠ .protectedMode) {seg : SegReg} {ea : Word32} {n k : Nat}
    (inside : InsideLimit s seg ea.toNat n) (h : k < n) :
    (s.linear seg ea k).toNat = (s.segBase seg + ea).toNat + k := by
  rw [insideLimit_of_not_protected mode] at inside
  have base := s.segBase_toNat_of_not_protected mode seg
  have selector := (s.segment seg).selector.isLt
  rw [toNat_linear, BitVec.toNat_add]
  omega

end Sys2Proof.Machine
end

section
/-! Settled statements of the lane function and of memory operands (spec/40_pcmpeq.md R82, R83,
spec/20_memory.md R30, R35, R38). -/

namespace Sys2Proof
open Machine

/-- Settles O17: each law holds lane by lane, and the lanes fill both operand sizes; (f) is refuted by two zero operands, whose
comparison is all 1s and compared with zero is not. -/
theorem laneFunctionLaws : Obligations.LaneFunctionLaws := by
  unfold Obligations.LaneFunctionLaws
  refine ⟨fun N size w d s => ?laws, fun w d s => ⟨?low, ?high⟩, fun w => ⟨0#64, 0#64, ?idempotent⟩⟩
  case laws =>
    have fills := lanes_fill size w
    refine ⟨fun i h => ?_, pcmpeq_comm fills d s, pcmpeq_self fills d, pcmpeq_eq_zero_iff fills d s,
      pcmpeq_eq_allOnes_iff fills d s⟩
    rw [laneAt_pcmpeq w d s h]
    exact ite_eq_or_eq ..
  case low => exact extractLsb'_pcmpeq w (off := 0) (by cases w <;> decide) d s
  case high =>
    have half := extractLsb'_pcmpeq w (off := 64 / w.bits) (by cases w <;> decide) d s
    rwa [lanes_fill64 w] at half
  case idempotent =>
    have fills := lanes_fill64 w
    rw [pcmpeq_self fills, ne_eq, pcmpeq_eq_allOnes_iff fills]
    exact (zero_ne_allOnes (by decide)).symm

/-- Settles O18: a half lane of the narrower comparison is all 1s exactly when the half lanes compared are equal. -/
theorem widerLaneNeedsBothHalves : Obligations.WiderLaneNeedsBothHalves := by
  unfold Obligations.WiderLaneNeedsBothHalves
  refine fun N size d s => ⟨fun j h => ?words, fun j h => ?dwords⟩
  case words =>
    have half (i) (hi : i < N / 8) : laneAt 8 i (pcmpeq .byte d s) = laneResult 8 i d s := laneAt_pcmpeq .byte d s hi
    rw [half _ (by omega), half _ (by omega)]
    exact (laneAt_pcmpeq .word d s h).trans (laneResult_double (w := 8) (by decide) j d s)
  case dwords =>
    have half (i) (hi : i < N / 16) : laneAt 16 i (pcmpeq .word d s) = laneResult 16 i d s := laneAt_pcmpeq .word d s hi
    rw [half _ (by omega), half _ (by omega)]
    exact (laneAt_pcmpeq .dword d s h).trans (laneResult_double (w := 16) (by decide) j d s)

/-- Settles O28: a byte lane is a byte of the number read, and a wider lane is its half lanes, the upper one first. -/
theorem memReadIsLittleEndian : Obligations.MemReadIsLittleEndian := by
  unfold Obligations.MemReadIsLittleEndian
  refine fun s addr n => ⟨fun k => laneAt_memRead s addr, fun j h => ?words, fun j h => ?dwords⟩
  case words =>
    rw [← laneAt_memRead s addr h, ← laneAt_memRead s addr (show 2 * j < n by omega)]
    exact laneAt_double 8 j _
  case dwords =>
    rw [← laneAt_memRead s addr h, ← laneAt_memRead s addr (show 4 * j + 2 < n by omega),
      ← laneAt_memRead s addr (show 4 * j + 1 < n by omega), ← laneAt_memRead s addr (show 4 * j < n by omega)]
    exact laneAt_quadruple 8 j _

/-- Settles O29: the value read is the operand's value, whose bytes are those behind translation; in Real mode the limit keeps
the operand's linear addresses from wrapping, so they are consecutive. -/
theorem operandReadGivesTheTranslatedBytes : Obligations.OperandReadGivesTheTranslatedBytes := by
  unfold Obligations.OperandReadGivesTheTranslatedBytes
  intro s seg ea n v h
  obtain ⟨readable, rfl⟩ := readOperand_eq_next_iff_readable.mp h
  refine ⟨fun k hk => ?bytes, fun mode => ?real⟩
  case bytes =>
    obtain ⟨p, translated⟩ := readable.mapped k hk
    refine ⟨p, ?_, ?_⟩
    · rw [← linear_eq_ofNat, translated]
    · rw [laneAt_operandValue s seg ea hk, operandByte, translated]
      rfl
  case real =>
    have bytes : ∀ k ∈ List.range n, operandByte s seg ea k = s.mem.read ((s.segBase seg + ea).toNat + k) := by
      intro k hk
      rw [operandByte, State.translate, mode]
      exact congrArg s.mem.read
        (toNat_linear_of_inside (by simp [mode]) readable.inside (List.mem_range.mp hk))
    rw [operandValue, State.memRead, List.map_congr_left bytes]

end Sys2Proof
end

section
/-! What a form answers, said once beside `exec_eq_fault`: when it completes, and which refusal it answers when
(spec/40_pcmpeq.md R70, spec/20_memory.md R38, spec/70_reset_and_hazards.md R111); and the environment, which no completed instruction changes
(spec/10_state.md R23). -/

namespace Sys2Proof.Machine

/-! ### The source -/

theorem exists_readOperand_iff {s : State} {seg : SegReg} {ea : Word32} {n : Nat} :
    (∃ v, readOperand s seg ea n = .next v) ↔ OperandReadable s seg ea n := by
  simp [readOperand_eq_next_iff_readable]

theorem exists_source64_iff {s : State} {i : Instr} (narrow : wideOp s i = false) :
    (∃ v, source64 s i.prefixes i.src = .next v) ↔ SourceReadable s i := by
  unfold SourceReadable
  cases i.src with
  | reg r => simp [source64]
  | mem m =>
    rw [operandSize_of_not_wideOp narrow]
    exact exists_readOperand_iff (seg := operandSegment i.prefixes m) (n := 8)

theorem exists_source128_iff {s : State} {i : Instr} (wide : wideOp s i = true) :
    (∃ v, source128 s i.prefixes i.src = .next v) ↔ SourceReadable s i := by
  unfold SourceReadable
  cases i.src with
  | reg r => simp [source128]
  | mem m =>
    rw [operandSize_of_wideOp wide]
    exact exists_readOperand_iff (seg := operandSegment i.prefixes m) (n := 16)

theorem source64_eq_refused {s : State} {ps : List Prefix} {src : Operand} {r : Refusal} :
    source64 s ps src = .refused r ↔
      ∃ m, src = .mem m ∧ operandRefusal s (operandSegment ps m) (effectiveAddress s m) 8 = some r := by
  cases src with
  | reg r => simp [source64]
  | mem m =>
    simp only [Operand.mem.injEq, exists_eq_left']
    exact readOperand_eq_refused

theorem source128_eq_refused {s : State} {ps : List Prefix} {src : Operand} {r : Refusal} :
    source128 s ps src = .refused r ↔
      ∃ m, src = .mem m ∧ operandRefusal s (operandSegment ps m) (effectiveAddress s m) 16 = some r := by
  cases src with
  | reg r => simp [source128]
  | mem m =>
    simp only [Operand.mem.injEq, exists_eq_left']
    exact readOperand_eq_refused

theorem sourceReadable_of_reg {s : State} {i : Instr} {r : RegNum} (src : i.src = .reg r) : SourceReadable s i := by
  simp [SourceReadable, src]

theorem sourceReadable_of_mem {s : State} {i : Instr} {m : MemOperand} (src : i.src = .mem m)
    (readable : OperandReadable s (operandSegment i.prefixes m) (effectiveAddress s m) (operandSize s i)) :
    SourceReadable s i := by
  simpa only [SourceReadable, src] using readable

/-! ### Completion -/

/-- A form completes exactly when it is ready, its source readable, and there is room ahead (R111, R14). -/
theorem exists_exec_next_iff {i : Instr} {s : State} :
    (∃ t, exec i s = .next t) ↔ ControlReady s i ∧ SourceReadable s i ∧ RoomAhead s i := by
  rw [exec_eq, controlReady_iff]
  cases wide : wideOp s i with
  | true =>
    rw [if_pos rfl, ← exists_source128_iff wide]
    simp only [compare128_eq_next, controlTests, wide, if_true]
    constructor
    · rintro ⟨-, mmx, tests, v, source, room, -⟩
      exact ⟨⟨mmx, tests⟩, ⟨v, source⟩, room⟩
    · rintro ⟨⟨mmx, tests⟩, ⟨v, source⟩, room⟩
      exact ⟨_, mmx, tests, v, source, room, rfl⟩
  | false =>
    rw [if_neg Bool.false_ne_true, ← exists_source64_iff wide]
    simp only [compare64_eq_next, controlTests, wide, Bool.false_eq_true, if_false]
    constructor
    · rintro ⟨-, mmx, tests, v, source, room, -⟩
      exact ⟨⟨mmx, tests⟩, ⟨v, source⟩, room⟩
    · rintro ⟨⟨mmx, tests⟩, ⟨v, source⟩, room⟩
      exact ⟨_, mmx, tests, v, source, room, rfl⟩

/-! ### Refusals -/

theorem needMMX_eq_refused {α : Type} {s : State} {go : Result α} {r : Refusal} :
    needMMX s go = .refused r ↔
      s.plat.hasMMX = false ∧ r = .noMMX ∨ s.plat.hasMMX = true ∧ go = .refused r := by
  cases mmx : s.plat.hasMMX with
  | true => simp [needMMX, mmx]
  | false => simp [needMMX, mmx, eq_comm (a := r)]

theorem compare64_eq_refused {w : LaneWidth} {ps : List Prefix} {dst : RegNum} {src : Operand} {s : State} {r : Refusal} :
    compare64 w ps dst src s = .refused r ↔
      s.plat.hasMMX = false ∧ r = .noMMX ∨
      s.plat.hasMMX = true ∧ controlTests64 s = none ∧
        (source64 s ps src = .refused r ∨
          (∃ v, source64 s ps src = .next v) ∧ s.offsetTop < s.eip.toNat + instrLength ps src ∧ r = .fetchWrap) := by
  simp only [compare64, needMMX_eq_refused, afterTests_eq_refused, andThen_eq_refused, advance_eq_refused,
    State.offsetTop_writeMM, State.writeMM_eip, exists_and_right]

theorem compare128_eq_refused {w : LaneWidth} {ps : List Prefix} {dst : RegNum} {src : Operand} {s : State} {r : Refusal} :
    compare128 w ps dst src s = .refused r ↔
      s.plat.hasMMX = false ∧ r = .noMMX ∨
      s.plat.hasMMX = true ∧ controlTests128 s = none ∧
        (source128 s ps src = .refused r ∨
          (∃ v, source128 s ps src = .next v) ∧ s.offsetTop < s.eip.toNat + instrLength ps src ∧ r = .fetchWrap) := by
  simp only [compare128, needMMX_eq_refused, afterTests_eq_refused, andThen_eq_refused, advance_eq_refused,
    State.offsetTop_writeXMM, State.writeXMM_eip, exists_and_right]

/-- What a form is refused for: a processor without MMX technology; when its control tests pass, a refusal of its memory
operand's read; and when the source is read, no room ahead (R70, R38, R14). -/
theorem exec_eq_refused {i : Instr} {s : State} {r : Refusal} :
    exec i s = .refused r ↔
      s.plat.hasMMX = false ∧ r = .noMMX ∨
      ControlReady s i ∧
        ((∃ m, i.src = .mem m ∧
            operandRefusal s (operandSegment i.prefixes m) (effectiveAddress s m) (operandSize s i) = some r) ∨
          SourceReadable s i ∧ ¬ RoomAhead s i ∧ r = .fetchWrap) := by
  rw [exec_eq, controlReady_iff, and_assoc, RoomAhead, not_le]
  cases wide : wideOp s i with
  | true =>
    rw [if_pos rfl, compare128_eq_refused, source128_eq_refused, exists_source128_iff wide, operandSize_of_wideOp wide,
      controlTests, wide, if_pos rfl]
    rfl
  | false =>
    rw [if_neg Bool.false_ne_true, compare64_eq_refused, source64_eq_refused, exists_source64_iff wide,
      operandSize_of_not_wideOp wide, controlTests, wide, if_neg Bool.false_ne_true]
    rfl

/-- The refusal of an operand, and what it is refused for (R33, R36, R39). -/
theorem operandRefusal_cases {s : State} {seg : SegReg} {ea : Word32} {n : Nat} {r : Refusal}
    (h : operandRefusal s seg ea n = some r) :
    r = .unusableSegment ∧ (s.segment seg).usable = false ∨
      r = .unalignedSegmentBase ∧ (s.segBase seg).toNat % 16 ≠ 0 ∨
      r = .alignmentCheck ∧ s.plat.alignmentCheckEnabled = true := by
  unfold operandRefusal at h
  split_ifs at h <;> simp_all

/-! ### The control exceptions -/

theorem controlTests64_eq_ud {s : State} : controlTests64 s = some .ud ↔ s.cr0EM = true := by
  unfold controlTests64
  split_ifs <;> simp_all

theorem controlTests128_eq_ud {s : State} : controlTests128 s = some .ud ↔ s.cr0EM = true ∨ s.cr4OSFXSR = false := by
  unfold controlTests128
  split_ifs <;> simp_all

theorem controlTests_eq_ud {s : State} {i : Instr} :
    controlTests s i = some .ud ↔ s.cr0EM = true ∨ wideOp s i = true ∧ s.cr4OSFXSR = false := by
  unfold controlTests
  cases wideOp s i with
  | true => simpa using controlTests128_eq_ud
  | false => simpa using controlTests64_eq_ud

theorem controlTests64_eq_mf {s : State} :
    controlTests64 s = some .mf ↔ s.x87Pending = true ∧ s.cr0EM = false ∧ s.cr0TS = false := by
  unfold controlTests64
  split_ifs <;> simp_all

theorem controlTests128_ne_mf {s : State} : controlTests128 s ≠ some .mf := by
  unfold controlTests128
  split_ifs <;> simp

/-- #MF is raised by 64-bit operations alone, and last (R95, R98). -/
theorem controlTests_eq_mf {s : State} {i : Instr} :
    controlTests s i = some .mf ↔
      wideOp s i = false ∧ s.x87Pending = true ∧ s.cr0EM = false ∧ s.cr0TS = false := by
  unfold controlTests
  cases wideOp s i with
  | true => simpa using controlTests128_ne_mf
  | false => simpa using controlTests64_eq_mf

/-- #UD, #NM and #MF are raised by the control tests and never by the operand read (R98). -/
theorem exec_eq_control_fault {i : Instr} {s : State} {e : Fault} (control : e = .ud ∨ e = .nm ∨ e = .mf) :
    exec i s = .fault e ↔ s.plat.hasMMX = true ∧ controlTests s i = some e := by
  rw [exec_eq_fault, or_iff_left]
  rintro ⟨-, m, -, read⟩
  obtain rfl | rfl | ⟨code, rfl⟩ := readOperand_fault_cases read <;> simp at control

theorem wideOp_eq_false {s : State} {i : Instr} : wideOp s i = false ↔ i.wide = false ∨ s.plat.hasSSE2 = false := by
  rw [wideOp, Bool.and_eq_false_iff]

/-- A misaligned 128-bit operand raises #GP(0), or, outside the stack's limit, possibly #SS(0) (R36, R40). -/
theorem segmentFault_of_misaligned {s : State} {seg : SegReg} {ea : Word32} {n : Nat}
    (misaligned : alignBad s seg ea n = true) :
    segmentFault s seg ea n = some .gp ∨
      (limitBad s seg ea n = true ∧ stackChecked s seg = true) ∧ segmentFault s seg ea n = some .ss := by
  by_cases inStack : limitBad s seg ea n = true ∧ stackChecked s seg = true
  · obtain ⟨outside, stack⟩ := inStack
    simp only [segmentFault, outside, stack, misaligned, Bool.and_self, if_true]
    split <;> simp
  · exact .inl (segmentFault_eq_gp inStack (.inr misaligned))

/-! ### The environment -/

/-- Two states that differ at most in the `mm` registers, the `xmm` registers and `EIP`. -/
structure SameEnvironment (s t : State) : Prop where
  mode : t.mode = s.mode
  segs : t.segs = s.segs
  gpr : t.gpr = s.gpr
  cr0EM : t.cr0EM = s.cr0EM
  cr0TS : t.cr0TS = s.cr0TS
  cr4OSFXSR : t.cr4OSFXSR = s.cr4OSFXSR
  x87Pending : t.x87Pending = s.x87Pending
  mem : t.mem = s.mem
  plat : t.plat = s.plat
  draw : t.draw = s.draw

theorem SameEnvironment.refl (s : State) : SameEnvironment s s := ⟨rfl, rfl, rfl, rfl, rfl, rfl, rfl, rfl, rfl, rfl⟩

theorem SameEnvironment.trans {s t u : State} (h : SameEnvironment s t) (h' : SameEnvironment t u) :
    SameEnvironment s u :=
  ⟨h'.mode.trans h.mode, h'.segs.trans h.segs, h'.gpr.trans h.gpr, h'.cr0EM.trans h.cr0EM, h'.cr0TS.trans h.cr0TS,
    h'.cr4OSFXSR.trans h.cr4OSFXSR, h'.x87Pending.trans h.x87Pending, h'.mem.trans h.mem, h'.plat.trans h.plat,
    h'.draw.trans h.draw⟩

theorem sameEnvironment_writeMM_setEip (s : State) (r : RegNum) (v : Word64) (eip : Word32) :
    SameEnvironment s ((s.writeMM r v).setEip eip) := ⟨rfl, rfl, rfl, rfl, rfl, rfl, rfl, rfl, rfl, rfl⟩

theorem sameEnvironment_writeXMM_setEip (s : State) (r : RegNum) (v : Word128) (eip : Word32) :
    SameEnvironment s ((s.writeXMM r v).setEip eip) := ⟨rfl, rfl, rfl, rfl, rfl, rfl, rfl, rfl, rfl, rfl⟩

theorem exec_next_sameEnvironment {i : Instr} {s t : State} (h : exec i s = .next t) : SameEnvironment s t := by
  obtain ⟨-, ⟨-, v, rfl⟩ | ⟨-, v, rfl⟩⟩ := exec_next_cases h
  · exact sameEnvironment_writeMM_setEip ..
  · exact sameEnvironment_writeXMM_setEip ..

namespace SameEnvironment
variable {s t : State} (h : SameEnvironment s t)
include h

theorem segment (r : SegReg) : t.segment r = s.segment r := by rw [State.segment, State.segment, h.segs]

theorem gpr32 (r : RegNum) : t.gpr32 r = s.gpr32 r := by rw [State.gpr32, State.gpr32, h.gpr]

theorem segBase (r : SegReg) : t.segBase r = s.segBase r := by rw [State.segBase, State.segBase, h.mode, h.segment]

theorem translate (lin : Word32) (access : Access) : t.translate lin access = s.translate lin access := by
  rw [State.translate, State.translate, h.mode, h.plat]

theorem offsetTop : t.offsetTop = s.offsetTop := by rw [State.offsetTop, State.offsetTop, h.mode]

theorem defaultAddrSize : t.defaultAddrSize = s.defaultAddrSize := by
  rw [State.defaultAddrSize, State.defaultAddrSize, h.mode, h.plat]

end SameEnvironment

theorem offsetTop_le (s : State) : s.offsetTop ≤ 0xFFFFFFFF := by
  unfold State.offsetTop
  split <;> simp

theorem offsetTop_of_protected {s : State} (h : s.mode = .protectedMode) : s.offsetTop = 0xFFFFFFFF := by
  simp [State.offsetTop, h]

theorem offsetTop_of_not_protected {s : State} (h : s.mode ≠ .protectedMode) : s.offsetTop = 0xFFFF := by
  cases mode : s.mode with
  | protectedMode => exact absurd mode h
  | realMode | v86Mode => simp [State.offsetTop, mode]

/-- A completed instruction moves `EIP` past itself, and the sum does not wrap (R14). -/
theorem exec_next_eip {i : Instr} {s t : State} (h : exec i s = .next t) :
    t.eip = s.eip + BitVec.ofNat 32 i.length ∧ t.eip.toNat = s.eip.toNat + i.length ∧ t.eip.toNat ≤ t.offsetTop := by
  have eip : t.eip = s.eip + BitVec.ofNat 32 i.length := by
    obtain ⟨-, ⟨-, v, rfl⟩ | ⟨-, v, rfl⟩⟩ := exec_next_cases h <;> rfl
  have room := (exec_next_cases h).1
  have top := offsetTop_le s
  have sum : t.eip.toNat = s.eip.toNat + i.length := by
    rw [eip, BitVec.toNat_add, BitVec.toNat_ofNat]
    omega
  exact ⟨eip, sum, by rw [sum, (exec_next_sameEnvironment h).offsetTop]; exact room⟩

/-! ### The default platform (R5) -/

theorem holds_flat (offset : Nat) : Segment.flat.holds offset = true ↔ offset ≤ 0xFFFFFFFF := by
  simp [Segment.holds, Segment.flat, Config.flatLimit]

/-- On the default platform every range of offsets up to 0xFFFFFFFF is inside a segment's limit (R5, R33). -/
theorem segLimitOK_flat {s : State} {seg : SegReg} (flat : s.segment seg = Segment.flat) {ea n : Nat} (bytes : 0 < n) :
    s.segLimitOK seg ea n = true ↔ ea + n - 1 ≤ 0xFFFFFFFF := by
  simp only [State.segLimitOK, flat, List.all_eq_true, List.mem_range, holds_flat]
  constructor
  · intro all
    have last := all (n - 1) (by omega)
    omega
  · intro inside k hk
    omega

end Sys2Proof.Machine
end

section
/-! Settled statements of completion: when a form completes, what it leaves unchanged and what it does not look at
(spec/10_state.md R14, R18, R19, R23, spec/40_pcmpeq.md R79, R81, spec/70_reset_and_hazards.md R111). -/

namespace Sys2Proof
open Machine

/-- Settles O21: each outcome of the template R70 is characterised by the conditions of its steps. -/
theorem completesExactlyWhenReady : Obligations.CompletesExactlyWhenReady := by
  unfold Obligations.CompletesExactlyWhenReady
  exact fun i s => exists_exec_next_iff

/-- Settles O22: the form completes with the comparison of the register with itself, and that is all 1s. -/
theorem sameRegisterBecomesAllOnes : Obligations.SameRegisterBecomesAllOnes := by
  unfold Obligations.SameRegisterBecomesAllOnes
  refine fun i s src ready room => ⟨fun narrow => ?mm, fun wide => ?xmm⟩
  case mm =>
    refine ⟨_, sixtyFourBitFormsComplete i s narrow ready (sourceReadable_of_reg src) room, ?_⟩
    simp only [src, State.readMM_setEip, State.readMM_writeMM_same, pcmpeq_self (lanes_fill64 _)]
    decide
  case xmm =>
    refine ⟨_, oneHundredTwentyEightBitFormsComplete i s wide ready (sourceReadable_of_reg src) room, ?_⟩
    simp only [src, State.readXMM_setEip, State.readXMM_writeXMM_same, pcmpeq_self (lanes_fill128 _)]
    decide

/-- Settles O23: without SSE2 no form is a 128-bit operation, so the `xmm` row completes as a 64-bit one and its control tests
are those of one; of its prefixes 66 is one. -/
theorem withoutSSE2TheWideRowsUseMM : Obligations.WithoutSSE2TheWideRowsUseMM := by
  unfold Obligations.WithoutSSE2TheWideRowsUseMM
  intro i s dflt row wf
  obtain ⟨admitted, has66, -⟩ := Instr.wf_iff.mp wf
  rw [row, decide_eq_true_eq] at has66
  refine ⟨fun sse2 => wideOp_eq_true.mpr ⟨row, sse2⟩, fun mmx noSSE2 em ts => ?_⟩
  have narrow : wideOp s i = false := wideOp_eq_false.mpr (.inr noSSE2)
  refine ⟨fun pending => ?mf, fun notPending room => ?completes, ?length⟩
  case mf => exact (exec_eq_control_fault (by simp)).mpr ⟨mmx, controlTests_eq_mf.mpr ⟨narrow, pending, em, ts⟩⟩
  case completes =>
    have ready : ControlReady s i := ⟨mmx, em, ts, by simp [narrow], fun _ => notPending⟩
    refine ⟨fun r src => ?_, fun m src readable => ?_⟩
    · simpa only [src] using sixtyFourBitFormsComplete i s narrow ready (sourceReadable_of_reg src) room
    · rw [← operandSize_of_not_wideOp narrow] at readable
      simpa only [src] using sixtyFourBitFormsComplete i s narrow ready (sourceReadable_of_mem src readable) room
  case length =>
    have one := length_filter_opSize admitted has66
    simp only [Instr.length, instrLength]
    omega

/-- Settles O24: completion adds the length to `EIP` under the test that the sum is not past the top; the refusal is the same
test's, and the last of the template's. -/
theorem eipAdvancesByTheLength : Obligations.EipAdvancesByTheLength := by
  unfold Obligations.EipAdvancesByTheLength
  intro i s dflt wf
  obtain ⟨atLeast, atMost⟩ := Instr.length_bounds wf
  refine ⟨atLeast, atMost, fun t done => ?moves, fun ready readable past => ?refused⟩
  case moves =>
    obtain ⟨eip, sum, -⟩ := exec_next_eip done
    exact ⟨eip, sum⟩
  case refused =>
    have noRoom : ¬ RoomAhead s i := by
      rw [RoomAhead, not_le]
      obtain ⟨mode, past⟩ | ⟨mode, past⟩ := past
      · rwa [offsetTop_of_protected mode]
      · rwa [offsetTop_of_not_protected mode]
    exact exec_eq_refused.mpr (.inr ⟨ready, .inr ⟨readable, noRoom, rfl⟩⟩)

/-- Settles O25: completion writes the destination register of one file and `EIP`, and the two files are separate. -/
theorem completedInstructionFrame : Obligations.CompletedInstructionFrame := by
  unfold Obligations.CompletedInstructionFrame
  intro i s t done
  have same := exec_next_sameEnvironment done
  refine ⟨fun r untouched => ?mm, fun r untouched => ?xmm, same.gpr32, same.segment, same.cr0EM, same.cr0TS,
    same.cr4OSFXSR, same.x87Pending, same.mode, fun a => by rw [same.mem], same.plat, same.draw⟩
  case mm =>
    obtain ⟨-, ⟨narrow, v, rfl⟩ | ⟨-, v, rfl⟩⟩ := exec_next_cases done
    · exact State.readMM_writeMM_other s v (untouched.resolve_left (by simp [narrow]))
    · rfl
  case xmm =>
    obtain ⟨-, ⟨-, v, rfl⟩ | ⟨wide, v, rfl⟩⟩ := exec_next_cases done
    · rfl
    · exact State.readXMM_writeXMM_other s v (untouched.resolve_left (by simp [wide]))

/-- Settles O26: neither the control tests nor the source of a 64-bit operation look at the `xmm` registers or CR4.OSFXSR, and
its completion writes an `mm` register. -/
theorem sixtyFourBitFormsIgnoreXMMState : Obligations.SixtyFourBitFormsIgnoreXMMState := by
  unfold Obligations.SixtyFourBitFormsIgnoreXMMState
  intro i s t x b narrow done
  rw [exec_eq, narrow, if_neg Bool.false_ne_true, compare64_eq_next] at done
  obtain ⟨mmx, tests, v, source, room, rfl⟩ := done
  have narrow' : wideOp { s with xmm := x, cr4OSFXSR := b } i = false := narrow
  have source' : source64 { s with xmm := x, cr4OSFXSR := b } i.prefixes i.src = .next v := by
    rw [← source]
    cases i.src <;> rfl
  rw [exec_eq, narrow', if_neg Bool.false_ne_true, compare64_eq_next]
  exact ⟨mmx, tests, v, source', room, rfl⟩

/-- Settles O27: neither the control tests nor the source of a 128-bit operation look at the `mm` registers or X87Pending, and
its completion writes an `xmm` register. -/
theorem oneHundredTwentyEightBitFormsIgnoreMMState : Obligations.OneHundredTwentyEightBitFormsIgnoreMMState := by
  unfold Obligations.OneHundredTwentyEightBitFormsIgnoreMMState
  intro i s t x b wide done
  rw [exec_eq, wide, if_pos rfl, compare128_eq_next] at done
  obtain ⟨mmx, tests, v, source, room, rfl⟩ := done
  have wide' : wideOp { s with mm := x, x87Pending := b } i = true := wide
  have source' : source128 { s with mm := x, x87Pending := b } i.prefixes i.src = .next v := by
    rw [← source]
    cases i.src <;> rfl
  rw [exec_eq, wide', if_pos rfl, compare128_eq_next]
  exact ⟨mmx, tests, v, source', room, rfl⟩

end Sys2Proof
end

section
/-! Settled statements of memory operands, their segments and the exceptions (spec/20_memory.md R33 to R40,
spec/60_exceptions.md R94 to R98, spec/00_scope.md R5). -/

namespace Sys2Proof
open Machine

/-- Settles O49: the three sums are one modulo 2^32; 16 times a 16-bit selector is a multiple of 16 below 2^20, and no operand
is refused for a base that is a multiple of 16. -/
theorem linearAddressFollowsTheSegmentBase : Obligations.LinearAddressFollowsTheSegmentBase := by
  unfold Obligations.LinearAddressFollowsTheSegmentBase
  refine fun s seg ea k => ⟨fun mode => ?protectedMode, fun mode => ?otherModes⟩
  case protectedMode => rw [toNat_linear, State.segBase_of_protected mode]
  case otherModes =>
    have base (r : SegReg) := s.segBase_toNat_of_not_protected mode r
    have selector := (s.segment seg).selector.isLt
    refine ⟨by rw [toNat_linear, base], by rw [base]; omega, by rw [base]; omega, fun i refused => ?_⟩
    obtain ⟨-, noMMX⟩ | ⟨-, ⟨m, -, operand⟩ | ⟨-, -, wrap⟩⟩ := exec_eq_refused.mp refused
    · simp at noMMX
    · have aligned : (s.segBase (operandSegment i.prefixes m)).toNat % 16 = 0 := by rw [base]; omega
      simpa [aligned] using operandRefusal_cases operand
    · simp at wrap

/-- Settles O30: with a usable segment the refusal of R38 is that of the base alone; over an aligned base a misaligned address
is a misaligned offset, and raises the segment exception of R36 or R40. -/
theorem misalignedWideOperandFaults : Obligations.MisalignedWideOperandFaults := by
  unfold Obligations.MisalignedWideOperandFaults
  intro i s m src wide ready seg ea usable
  have size := operandSize_of_wideOp wide
  refine ⟨fun base => ?refused, fun base => ⟨add_toNat_mod_sixteen base, fun misaligned => ?faults⟩⟩
  case refused =>
    refine exec_eq_refused.mpr (.inr ⟨ready, .inl ⟨m, src, ?_⟩⟩)
    rw [size, operandRefusal, if_neg (by simpa using usable), if_pos ⟨rfl, base⟩]
  case faults =>
    have free : operandRefusal s seg ea (operandSize s i) = none :=
      operandRefusal_eq_none.mpr ⟨usable, fun _ => base, by simp [size]⟩
    have raised {e} (segment : e = .gp ∨ e = .ss) (h : segmentFault s seg ea (operandSize s i) = some e) :
        exec i s = .fault e := (exec_eq_segmentFault segment).mpr ⟨ready, m, src, free, h⟩
    obtain gp | ⟨⟨outside, stack⟩, ss⟩ := segmentFault_of_misaligned (alignBad_operandSize.mpr ⟨wide, misaligned⟩)
    · exact .inl (raised (.inl rfl) gp)
    · obtain ⟨mode, isSS⟩ := stackChecked_eq_true.mp stack
      rw [limitBad_eq_true, size] at outside
      exact .inr ⟨mode, isSS, outside, raised (.inr rfl) ss⟩

/-- Settles O31: of the conditions of a readable 64-bit operand alignment is one only under AlignmentCheckEnabled, where the
operand is refused. -/
theorem narrowOperandNeedsNoAlignment : Obligations.NarrowOperandNeedsNoAlignment := by
  unfold Obligations.NarrowOperandNeedsNoAlignment
  intro i s m src narrow ready room seg ea usable
  have size := operandSize_of_not_wideOp narrow
  refine ⟨fun checked misaligned => ?refused, fun unchecked inside mapped => ?completes⟩
  case refused =>
    refine exec_eq_refused.mpr (.inr ⟨ready, .inl ⟨m, src, ?_⟩⟩)
    rw [size, operandRefusal, if_neg (by simpa using usable), if_neg (by simp), if_pos ⟨rfl, checked, misaligned⟩]
  case completes =>
    have readable : OperandReadable s seg ea (operandSize s i) := by
      rw [size]
      exact ⟨usable, inside, by simp, by simp [unchecked], mapped⟩
    exact ⟨_, sixtyFourBitFormsComplete i s narrow ready (sourceReadable_of_mem src readable) room, by simp [src, seg, ea]⟩

/-- Settles O32: the segment is the first thing the operand read looks at, and MMX technology the first that a form does. -/
theorem unusableSegmentAndMissingMMXAreRefused : Obligations.UnusableSegmentAndMissingMMXAreRefused := by
  unfold Obligations.UnusableSegmentAndMissingMMXAreRefused
  refine ⟨fun i s m src ready unusable => ?segment, fun i s noMMX => exec_eq_refused.mpr (.inl ⟨noMMX, rfl⟩)⟩
  case segment => exact exec_eq_refused.mpr (.inr ⟨ready, .inl ⟨m, src, by rw [operandRefusal, if_pos unusable]⟩⟩)

/-- Settles O33: #UD is one of the control tests', the first. -/
theorem undefinedOpcodeExactly : Obligations.UndefinedOpcodeExactly := by
  unfold Obligations.UndefinedOpcodeExactly
  intro i s mmx
  rw [exec_eq_control_fault (.inl rfl), controlTests_eq_ud, wideOp_eq_true, and_assoc]
  exact and_iff_right mmx

/-- Settles O35: #MF is one of the control tests', the last, and in no mode is it another's. -/
theorem pendingX87ErrorExactly : Obligations.PendingX87ErrorExactly := by
  unfold Obligations.PendingX87ErrorExactly
  intro i s mmx
  rw [exec_eq_control_fault (.inr (.inr rfl)), controlTests_eq_mf, wideOp_eq_false]
  exact and_iff_right mmx

/-- Settles O39: only outside the stack's limit is there a draw; everywhere else the segment exception of a misaligned operand
is #GP(0). -/
theorem misalignedAndOutsideRaisesEither : Obligations.MisalignedAndOutsideRaisesEither := by
  unfold Obligations.MisalignedAndOutsideRaisesEither
  intro i s m src wide ready seg ea free outside misaligned
  have size := operandSize_of_wideOp wide
  rw [← size] at free
  have raised {e} (segment : e = .gp ∨ e = .ss) (h : segmentFault s seg ea (operandSize s i) = some e) :
      exec i s = .fault e := (exec_eq_segmentFault segment).mpr ⟨ready, m, src, free, h⟩
  have bad := alignBad_operandSize.mpr ⟨wide, misaligned⟩
  refine ⟨fun _ => ?either, fun notStack => ?only⟩
  case either =>
    exact (segmentFault_of_misaligned bad).imp (raised (.inl rfl)) fun ⟨_, ss⟩ => raised (.inr rfl) ss
  case only =>
    rw [← stackChecked_eq_true] at notStack
    exact raised (.inl rfl) (segmentFault_eq_gp (fun ⟨_, stack⟩ => notStack stack) (.inr bad))

/-- Settles O40: each bound is that of the one step that raises the exception: the control tests, the segment step,
translation. -/
theorem exceptionTableBounds : Obligations.ExceptionTableBounds := by
  unfold Obligations.ExceptionTableBounds
  intro i s e fault
  refine ⟨?mf, ?ss, ?pf, ?register, ?ud⟩
  case mf =>
    rintro wide rfl
    obtain ⟨-, tests⟩ := (exec_eq_control_fault (by simp)).mp fault
    simp [controlTests_eq_mf, wide] at tests
  case ss =>
    rintro mode rfl
    obtain ⟨-, m, -, -, segment⟩ := (exec_eq_segmentFault (.inr rfl)).mp fault
    exact mode (stackChecked_eq_true.mp (segmentFault_ss_cases segment).2).1
  case pf =>
    rintro mode code rfl
    obtain ⟨-, m, -, read⟩ := (exec_eq_fault_of_operand (by simp)).mp fault
    obtain ⟨k, -, byte⟩ := readOperand_pf_byte read
    exact translate_ne_pageFault_of_realMode mode _ _ code byte
  case register =>
    intro r src
    obtain ⟨-, tests⟩ | ⟨-, m, src', -⟩ := exec_eq_fault.mp fault
    · exact controlTests_eq_some tests
    · simp [src] at src'
  case ud =>
    rintro narrow em rfl
    obtain ⟨-, tests⟩ := (exec_eq_control_fault (by simp)).mp fault
    simp [controlTests_eq_ud, narrow, em] at tests

/-- Settles O41: these exceptions are those of the control tests, which are a function of the control state and of the kind of
the form. -/
theorem controlExceptionsComeFirst : Obligations.ControlExceptionsComeFirst := by
  unfold Obligations.ControlExceptionsComeFirst
  intro i j s t e control row mmx sse2 em ts osfxsr x87 fault
  have same : controlTests t j = controlTests s i := by
    unfold controlTests wideOp controlTests64 controlTests128
    rw [row, sse2, em, ts, osfxsr, x87]
  rw [exec_eq_control_fault control] at fault ⊢
  rwa [same, ← mmx]

/-- Settles O50: the default values are read off; translation answers no page fault, and of the refusals only the one for `EIP`
does not rest on a parameter. -/
theorem defaultPlatformIsFlat : Obligations.DefaultPlatformIsFlat := by
  unfold Obligations.DefaultPlatformIsFlat
  rintro r size s rfl
  have flat := r.onDefaultPlatform_segment size
  have base := r.onDefaultPlatform_segBase size
  have identity (lin : Word32) (access : Access) :
      (r.onDefaultPlatform size).translate lin access = .phys lin.toNat := by
    unfold State.translate
    split <;> rfl
  have mmx : (r.onDefaultPlatform size).plat.hasMMX = true := rfl
  have unchecked : (r.onDefaultPlatform size).plat.alignmentCheckEnabled = false := rfl
  refine ⟨mmx, rfl, unchecked, fun seg => ⟨base seg, by rw [flat]; rfl⟩, fun seg ea n => segLimitOK_flat (flat seg), identity,
    fun i code fault => ?noPageFault, fun i q refused => ?onlyWrap⟩
  case noPageFault =>
    obtain ⟨-, m, -, read⟩ := (exec_eq_fault_of_operand (by simp)).mp fault
    obtain ⟨k, -, byte⟩ := readOperand_pf_byte read
    simp [identity] at byte
  case onlyWrap =>
    obtain ⟨noMMX, -⟩ | ⟨-, ⟨m, -, operand⟩ | ⟨-, -, wrap⟩⟩ := exec_eq_refused.mp refused
    · exact absurd (mmx.symm.trans noMMX) (by decide)
    · obtain ⟨-, unusable⟩ | ⟨-, unaligned⟩ | ⟨-, checked⟩ := operandRefusal_cases operand
      · simp [flat, Segment.flat] at unusable
      · simp [base] at unaligned
      · exact absurd (unchecked.symm.trans checked) (by decide)
    · exact wrap

end Sys2Proof
end

section
/-! Steps and runs: what a step does by the instruction that stands at `EIP`, where a run stops, and what a run of any length
leaves unchanged (spec/60_exceptions.md R99, R104, spec/70_reset_and_hazards.md R112 to R114). -/

namespace Sys2Proof.Machine

/-! ### One step -/

/-- A step completes exactly when the well-formed instruction that stands at `EIP` does. -/
theorem step_eq_next_iff_placed {s t : State} :
    step s = .next t ↔ ∃ i : Instr, i.wf s.defaultAddrSize = true ∧ PlacedAtEip s [i] ∧ exec i s = .next t := by
  simp only [step_eq_next, fetchDecode_eq_next_iff, and_assoc]

/-- A step raises an exception exactly when the well-formed instruction that stands at `EIP` does. -/
theorem step_eq_fault_iff_placed {s : State} {e : Fault} :
    step s = .fault e ↔ ∃ i : Instr, i.wf s.defaultAddrSize = true ∧ PlacedAtEip s [i] ∧ exec i s = .fault e := by
  simp only [step_eq_fault, fetchDecode_eq_next_iff, and_assoc]

theorem step_next_sameEnvironment {s t : State} (h : step s = .next t) : SameEnvironment s t := by
  obtain ⟨i, -, done⟩ := step_eq_next.mp h
  exact exec_next_sameEnvironment done

/-- A completed step moves `EIP` by the length of an instruction, not past the top of the offset space (R14, R62). -/
theorem step_next_eip {s t : State} (h : step s = .next t) :
    s.eip.toNat + 3 ≤ t.eip.toNat ∧ t.eip.toNat ≤ s.eip.toNat + 11 ∧ t.eip.toNat ≤ t.offsetTop := by
  obtain ⟨i, wf, -, done⟩ := step_eq_next_iff_placed.mp h
  obtain ⟨atLeast, atMost⟩ := Instr.length_bounds wf
  obtain ⟨-, sum, top⟩ := exec_next_eip done
  exact ⟨by omega, by omega, top⟩

/-! ### Runs -/

theorem run_next_sameEnvironment {k : Nat} {s t : State} (h : run k s = .next t) : SameEnvironment s t := by
  induction k generalizing s with
  | zero => exact Host.Outcome.next.inj h ▸ SameEnvironment.refl s
  | succ k ih =>
    obtain ⟨u, first, later⟩ := run_succ_eq_next.mp h
    exact (step_next_sameEnvironment first).trans (ih later)

theorem run_next_eip {k : Nat} {s t : State} (h : run k s = .next t) :
    s.eip.toNat + 3 * k ≤ t.eip.toNat ∧ t.eip.toNat ≤ s.eip.toNat + 11 * k := by
  induction k generalizing s with
  | zero => simp [Host.Outcome.next.inj h]
  | succ k ih =>
    obtain ⟨u, first, later⟩ := run_succ_eq_next.mp h
    obtain ⟨atLeast, atMost, -⟩ := step_next_eip first
    obtain ⟨atLeast', atMost'⟩ := ih later
    omega

/-- An outcome that ends a run: a fault or a refusal. -/
def Ends (o : Result State) : Prop := ∀ t, o ≠ .next t

theorem andThen_of_ends {o : Result State} (h : Ends o) (f : State → Result State) : andThen o f = o := by
  cases o with
  | next t => exact absurd rfl (h t)
  | fault e | refused r => rfl

/-- A run that ends without a next state reached a state whose step ends so, and no further step continues it. -/
theorem run_ends {k : Nat} {s : State} {o : Result State} (h : run k s = o) (ends : Ends o) :
    (∃ m < k, ∃ t, run m s = .next t ∧ step t = o) ∧ ∀ j, run (k + j) s = o := by
  induction k generalizing s with
  | zero => exact absurd h.symm (ends s)
  | succ k ih =>
    cases first : step s with
    | next u =>
      have later : run k u = o := by rwa [run, first] at h
      obtain ⟨⟨m, hm, t, reach, stop⟩, stays⟩ := ih later
      refine ⟨⟨m + 1, by omega, t, run_succ_eq_next.mpr ⟨u, first, reach⟩, stop⟩, fun j => ?_⟩
      rw [Nat.add_right_comm, run, first]
      exact stays j
    | fault e | refused r =>
      obtain rfl : step s = o := by rw [run, first] at h; rw [first]; exact h
      refine ⟨⟨0, by omega, s, rfl, rfl⟩, fun j => ?_⟩
      rw [Nat.add_right_comm, run, andThen_of_ends ends]

theorem run_eq_fault {k : Nat} {s : State} {e : Fault} (h : run k s = .fault e) :
    (∃ m < k, ∃ t, run m s = .next t ∧ step t = .fault e) ∧ ∀ j, run (k + j) s = .fault e :=
  run_ends h fun _ => by simp

theorem run_eq_refused {k : Nat} {s : State} {q : Refusal} (h : run k s = .refused q) :
    (∃ m < k, ∃ t, run m s = .next t ∧ step t = .refused q) ∧ ∀ j, run (k + j) s = .refused q :=
  run_ends h fun _ => by simp

/-- A control exception that ends a run was raised by the control tests in the environment that the run began with. -/
theorem run_control_fault {k : Nat} {s : State} {e : Fault} (control : e = .ud ∨ e = .nm ∨ e = .mf)
    (h : run k s = .fault e) : ∃ t i, SameEnvironment s t ∧ controlTests t i = some e := by
  obtain ⟨⟨m, -, t, reach, stop⟩, -⟩ := run_eq_fault h
  obtain ⟨i, -, fault⟩ := step_eq_fault.mp stop
  exact ⟨t, i, run_next_sameEnvironment reach, ((exec_eq_control_fault control).mp fault).2⟩

/-! ### Placed programs (R114) -/

theorem Program.bytes_cons (i : Instr) (p : Program) : Program.bytes (i :: p) = encode i ++ Program.bytes p := rfl

/-- Past a completed instruction the fetch reads what it would have read that many bytes further on before it. -/
theorem fetchByte_after_next {i : Instr} {s t : State} (h : exec i s = .next t) (k : Nat) :
    fetchByte t k = fetchByte s (i.length + k) := by
  have same := exec_next_sameEnvironment h
  obtain ⟨eip, sum, -⟩ := exec_next_eip h
  have linear : t.linear .cs t.eip k = s.linear .cs s.eip (i.length + k) := by
    rw [linear_eq_ofNat, linear_eq_ofNat, same.segBase, sum, Nat.add_assoc, Nat.add_assoc, Nat.add_assoc]
  rw [fetchByte, fetchByte, same.offsetTop, same.segment, same.translate, linear, same.mem, sum, Nat.add_assoc]

theorem fetchedFrom_after_next {i : Instr} {s t : State} (h : exec i s = .next t) {k : Nat} {bs : List Byte} :
    FetchedFrom t k bs ↔ FetchedFrom s (i.length + k) bs := by
  simp only [fetchedFrom_iff, fetchByte_after_next h, Nat.add_assoc]

theorem placedAtEip_cons {s : State} {i : Instr} {p : Program} :
    PlacedAtEip s (i :: p) ↔ PlacedAtEip s [i] ∧ FetchedFrom s i.length (Program.bytes p) := by
  rw [placedAtEip_iff, placedAtEip_iff, Program.bytes_cons, fetchedFrom_append, length_encode, Nat.zero_add,
    Program.bytes_singleton]

/-- A placed program is still placed, less its first instruction, after that instruction. -/
theorem placedAtEip_after_next {i : Instr} {p : Program} {s t : State} (h : exec i s = .next t)
    (placed : PlacedAtEip s (i :: p)) : PlacedAtEip t p :=
  placedAtEip_iff.mpr ((fetchedFrom_after_next h).mpr (placedAtEip_cons.mp placed).2)

/-- The steps of a placed program are its instructions, one after the other. -/
theorem run_eq_execAll {p : Program} {s : State} (wf : ∀ i ∈ p, i.wf s.defaultAddrSize = true)
    (placed : PlacedAtEip s p) : run p.length s = execAll p s := by
  induction p generalizing s with
  | nil => rfl
  | cons i p ih =>
    obtain ⟨wfFirst, wfLater⟩ := List.forall_mem_cons.mp wf
    rw [List.length_cons, run, execAll, step_of_placed wfFirst (placedAtEip_cons.mp placed).1]
    cases first : exec i s with
    | next t =>
      rw [← (exec_next_sameEnvironment first).defaultAddrSize] at wfLater
      exact ih wfLater (placedAtEip_after_next first placed)
    | fault e | refused r => rfl

/-- Executed to its end a program moves `EIP` past its bytes. -/
theorem execAll_next_endedNormally {p : Program} {s t : State} (h : execAll p s = .next t) : EndedNormally s.eip p t := by
  induction p generalizing s with
  | nil => simp [EndedNormally, Host.Outcome.next.inj h, Program.bytes]
  | cons i p ih =>
    obtain ⟨u, first, later⟩ := andThen_eq_next.mp h
    have rest := ih later
    obtain ⟨-, sum, -⟩ := exec_next_eip first
    rw [EndedNormally] at rest ⊢
    rw [rest, sum, Program.bytes_cons, List.length_append, length_encode, Nat.add_assoc]

end Sys2Proof.Machine
end

section
/-! Settled statements of invariants, runs and reset (spec/10_state.md R14, R23, R25, spec/60_exceptions.md R99,
spec/70_reset_and_hazards.md R112 to R114). -/

namespace Sys2Proof
open Machine

/-- Settles O42: a step leaves memory and the mode as they are, and completes only with `EIP` not past the top of the offset
space, which outside Protected mode is FFFF. -/
theorem stepKeepsTheInvariant : Obligations.StepKeepsTheInvariant := by
  unfold Obligations.StepKeepsTheInvariant
  rintro s t ⟨memory, -⟩ done
  refine ⟨by rwa [(step_next_sameEnvironment done).mem], fun mode => ?_⟩
  obtain ⟨-, -, top⟩ := step_next_eip done
  rwa [offsetTop_of_not_protected mode] at top

/-- Settles O43: nothing is listed in memory at reset, and the reset `EIP` is FFF0. -/
theorem resetHasTheInvariant : Obligations.ResetHasTheInvariant := by
  unfold Obligations.ResetHasTheInvariant
  exact ⟨wf_reset, fun _ => by decide⟩

/-- Settles O44: the premises are about control bits that no run changes, and a control exception that ends a run is one of the
control tests under those bits. -/
theorem launchPremisesLastForEveryRun : Obligations.LaunchPremisesLastForEveryRun := by
  unfold Obligations.LaunchPremisesLastForEveryRun
  refine fun k s => ⟨fun t done => ?last, fun ⟨em, osfxsr⟩ fault => ?noUD, fun ts fault => ?noNM, fun x87 fault => ?noMF⟩
  case last =>
    have same := run_next_sameEnvironment done
    refine ⟨fun em => same.cr0EM.trans em, fun ⟨em, osfxsr⟩ => ⟨same.cr0EM.trans em, same.cr4OSFXSR.trans osfxsr⟩,
      fun ts => same.cr0TS.trans ts, fun x87 => same.x87Pending.trans x87⟩
  case noUD =>
    obtain ⟨t, i, same, tests⟩ := run_control_fault (by simp) fault
    simp [controlTests_eq_ud, same.cr0EM, same.cr4OSFXSR, em, osfxsr] at tests
  case noNM =>
    obtain ⟨t, i, same, tests⟩ := run_control_fault (by simp) fault
    have ts : s.cr0TS = false := ts
    simp [controlTests_eq_nm, same.cr0TS, ts] at tests
  case noMF =>
    obtain ⟨t, i, same, tests⟩ := run_control_fault (by simp) fault
    have x87 : s.x87Pending = false := x87
    simp [controlTests_eq_mf, same.x87Pending, x87] at tests

/-- Settles O45: the environment is that of the start after every step, and each step moves `EIP` by the length of an
instruction. -/
theorem runsLeaveTheEnvironmentAlone : Obligations.RunsLeaveTheEnvironmentAlone := by
  unfold Obligations.RunsLeaveTheEnvironmentAlone
  intro k s t done
  have same := run_next_sameEnvironment done
  obtain ⟨atLeast, atMost⟩ := run_next_eip done
  exact ⟨same.mode, same.segment, same.gpr32, same.cr0EM, same.cr0TS, same.cr4OSFXSR, same.x87Pending,
    fun a => by rw [same.mem], same.plat, atLeast, atMost⟩

/-- Settles O46: by induction over the program; after the first instruction the rest is still placed at `EIP`, because neither
memory nor what the fetch looks at has changed. -/
theorem placedProgramRunsInOrderToItsEnd : Obligations.PlacedProgramRunsInOrderToItsEnd := by
  unfold Obligations.PlacedProgramRunsInOrderToItsEnd
  intro p s wf placed
  have order := run_eq_execAll wf placed
  exact ⟨order, fun t done => execAll_next_endedNormally (order.symm.trans done)⟩

/-- Settles O47: the fetch answers exactly the well-formed instruction that stands at `EIP`, and never an exception; a run ends
with the step that ends it. -/
theorem stepFaultsExactlyWhenItsInstructionDoes : Obligations.StepFaultsExactlyWhenItsInstructionDoes := by
  unfold Obligations.StepFaultsExactlyWhenItsInstructionDoes
  refine ⟨fun s e => step_eq_fault_iff_placed, fun s t => step_eq_next_iff_placed, fun k s e fault => ?faulted,
    fun k s q => run_eq_refused⟩
  case faulted =>
    obtain ⟨⟨m, earlier, t, reach, stop⟩, stays⟩ := run_eq_fault fault
    obtain ⟨i, wf, placed, raised⟩ := step_eq_fault_iff_placed.mp stop
    exact ⟨⟨m, earlier, t, i, reach, wf, placed, raised⟩, stays⟩

/-- Settles O48: the reset values are read off, register by register. -/
theorem resetValuesOfTheFamily : Obligations.ResetValuesOfTheFamily := by
  unfold Obligations.ResetValuesOfTheFamily
  have segments : ∀ r, r ≠ SegReg.cs → State.reset.segment r = Segment.resetData := by
    intro r other
    cases r with
    | cs => exact absurd rfl other
    | es | ss | ds | fs | gs => rfl
  refine ⟨by decide, by decide, by decide, rfl, rfl, rfl, fun r other => ?_, by decide, rfl, rfl, rfl, rfl, rfl⟩
  rw [segments r other]
  exact ⟨rfl, rfl⟩

end Sys2Proof
end
